-- ==== Sys2Proof/Word.lean ====
section
/-! DEFINITION. The word types of the block: every port carries a whole 16-bit word in parallel
(20_memory.md R31, R34). -/

namespace Sys2Proof

/-- A 16-bit port word. Position `p` of the spec (1..16 from the most significant bit) is bit
`16 - p` (00_scope.md R6, R7). -/
abbrev Word := BitVec 16

/-- A byte of the model's own layout of an application (DESIGN CHOICE, log 3). -/
abbrev Byte := BitVec 8

end Sys2Proof
end

