-- ==== Sys2Proof/Config.lean ====
section
/-! DEFINITION. What an implementation fixes and the spec leaves open: the free message of an
unreadable word and the settling time. Both are opaque, so no proof can see a value of either. -/

namespace Sys2Proof.Config

/-- `draw_11()` of 43_decoder.md R87 and R90: the 11-bit message value the block gives on
`UNREADABLE`. One fixed value for each received word (90_conflicts.md C9), which the spec does not
fix. Free value (DESIGN CHOICE in form, log 5). -/
opaque draw11 : Word → BitVec 11

/-- `T_PD`, the input-to-output settling time, in a unit the spec does not give: an OPEN parameter
that no rule of the model uses (00_scope.md R5, 92_eei_decisions.md D12, log 10). -/
opaque tPD : Nat

end Sys2Proof.Config
end

