-- ==== Sys2Proof/Machine/Masks.lean ====
section
/-! DEFINITION. The seven hardwired masks and the data positions (10_state.md R19,
30_encoding.md R44, R45). They are constants, not state. -/

namespace Sys2Proof.Machine

/-- Parity-check mask `PM_i`: the positions 1..15 whose index has bit `i` set (30_encoding.md R44). -/
def parityCheckMask : Fin 4 → Word
  | 0 => 0xAAAA#16
  | 1 => 0x6666#16
  | 2 => 0x1E1E#16
  | 3 => 0x01FE#16

/-- Data-bit mask `DM_j` (30_encoding.md R45). The grouping cannot be seen at the ports: INSERT and
EXTRACT use the map of R47 (90_conflicts.md C2). -/
def dataBitMask : Fin 3 → Word
  | 0 => 0x2E00#16
  | 1 => 0x00F0#16
  | 2 => 0x000E#16

/-- `DM_0 OR DM_1 OR DM_2`: the 11 data positions (30_encoding.md R45). -/
def allDataMask : Word := dataBitMask 0 ||| dataBitMask 1 ||| dataBitMask 2

/-- The five parity positions 1, 2, 4, 8 and 16 (30_encoding.md R45, 90_conflicts.md C10). -/
def allParityMask : Word := 0xD101#16

/-- `DATA_POS`, left to right (30_encoding.md R45). -/
def dataPos : List Nat := [3, 5, 6, 7, 9, 10, 11, 12, 13, 14, 15]

/-- The indices 0..3 of the positional checks, in the source's order (30_encoding.md R44). -/
def checkIndices : List (Fin 4) := [0, 1, 2, 3]

end Sys2Proof.Machine
end

