-- ==== Sys2Proof/Syntax.lean ====
section
/-! DEFINITION. The block's repertoire: one constructor for each row of spec/opcode_table.json
(30_encoding.md R41). Each operation takes exactly one 16-bit word (R54). -/

namespace Sys2Proof

/-- An application of one operation to one whole input word (20_memory.md R35). Ignored bits stay
in the word, as they do on the port (30_encoding.md R52). -/
inductive Instr where
  /-- ENCODE: `uuuuummmmmmmmmmm` on `enc_msg_in` (40_encoder.md R62). -/
  | encode (msgIn : Word)
  /-- DECODE: `cccccccccccccccc` on `dec_cw_in` (43_decoder.md R87). -/
  | decode (cwIn : Word)
  /-- INSERT: `uuuuummmmmmmmmmm`, first stage of ENCODE (40_encoder.md R58). -/
  | insert (msg : Word)
  /-- PARGEN: `00d0ddd0ddddddd0`, second stage of ENCODE (40_encoder.md R59). -/
  | pargen (cwD : Word)
  /-- SYNDROME: `cccccccccccccccc`, first stage of DECODE (41_syndrome.md R68). -/
  | syndrome (w : Word)
  /-- CORRECT: `cccccccccccccccc`, second stage of DECODE; its operands `syn` and `par_even` come
  from SYNDROME of the same word (42_corrector.md R75). -/
  | correct (w : Word)
  /-- EXTRACT: `ppdpdddpdddddddp`, third stage of DECODE (43_decoder.md R85). -/
  | extract (w : Word)
deriving DecidableEq, Repr

end Sys2Proof
end

