-- ==== Sys2Proof/WellFormed.lean ====
section
/-! DEFINITION. Which instructions are words of their row. Every 16-bit word is an input of every
operation (30_encoding.md R51, R52, 20_memory.md R33), but for PARGEN, whose pattern
`00d0ddd0ddddddd0` has 0 at the five parity positions (40_encoder.md R59,
93_implementation_defined.md I7). -/

namespace Sys2Proof

/-- The instruction's word fits the pattern of its row of spec/opcode_table.json. -/
def Instr.wf : Instr → Bool
  | .encode _ => true
  | .decode _ => true
  | .insert _ => true
  | .pargen cwD => cwD &&& Machine.allParityMask == 0#16
  | .syndrome _ => true
  | .correct _ => true
  | .extract _ => true

/-- `Instr.wf` as a proposition. -/
abbrev Instr.WellFormed (i : Instr) : Prop := i.wf = true

end Sys2Proof
end

