-- ==== Sys2Proof/Decode.lean ====
section
/-! DEFINITION. The decoder and the encoder of applications. The block has no opcode field: the
port group selects the operation (30_encoding.md R41, 92_eei_decisions.md D13). The model writes
that selection as a byte after the 16-bit word (DESIGN CHOICE, log 2), low byte of the word first
(DESIGN CHOICE, log 3), so bits 15:0 of an application are exactly the table's. -/

namespace Sys2Proof

/-- Why three bytes are no application of the block. -/
inductive DecodeError where
  /-- Fewer than three bytes are left. Raised by `decode`. Safe: no operation is run. -/
  | truncated
  /-- The selector names no operation; the block has no others (00_scope.md R4). Raised by
  `decodeSelected`. Safe: no operation is run. -/
  | reservedSelector (sel : Byte)
  /-- The selector names PARGEN and the word has a 1 at a parity position, so it is no word of
  PARGEN's pattern (93_implementation_defined.md I7, log 6). Raised by `decodeSelected`. Safe. -/
  | parityPositionSet (w : Word)
deriving DecidableEq, Repr

/-- The operation a selector names, applied to the word: the table's rows in their order. -/
def decodeSelected (sel : Byte) (w : Word) : Except DecodeError Instr :=
  match sel.toNat with
  | 0 => .ok (.encode w)
  | 1 => .ok (.decode w)
  | 2 => .ok (.insert w)
  | 3 => if w &&& Machine.allParityMask = 0#16 then .ok (.pargen w) else .error (.parityPositionSet w)
  | 4 => .ok (.syndrome w)
  | 5 => .ok (.correct w)
  | 6 => .ok (.extract w)
  | _ => .error (.reservedSelector sel)

/-- The application at the front of a byte list, and the bytes after it: the word's low byte, its
high byte, the selector. -/
def decode : List Byte → Except DecodeError (Instr × List Byte)
  | lo :: hi :: sel :: rest =>
    match decodeSelected sel (hi ++ lo) with
    | .ok i => .ok (i, rest)
    | .error e => .error e
  | _ => .error .truncated

/-- The instruction's 16-bit word, as the table's pattern numbers it. -/
def Instr.word : Instr → Word
  | .encode w => w
  | .decode w => w
  | .insert w => w
  | .pargen w => w
  | .syndrome w => w
  | .correct w => w
  | .extract w => w

/-- The instruction's selector: its row's place in spec/opcode_table.json, from 0 (log 2). -/
def Instr.selector : Instr → Byte
  | .encode _ => 0#8
  | .decode _ => 1#8
  | .insert _ => 2#8
  | .pargen _ => 3#8
  | .syndrome _ => 4#8
  | .correct _ => 5#8
  | .extract _ => 6#8

/-- The three bytes of a word and its selector, in the layout `decode` reads. -/
def applicationBytes (w : Word) (sel : Byte) : List Byte :=
  [w.extractLsb' 0 8, w.extractLsb' 8 8, sel]

/-- The bytes of an instruction. -/
def encode (i : Instr) : List Byte := applicationBytes i.word i.selector

/-- The instruction the decoder reads from an application whose bits are `w`, numbered as
spec/opcode_table.json numbers them; the bits above `nbits` are 0. A row gives 16 bits and no
selector, so the selector reads 0, which names ENCODE (log 2). -/
def decodeTableWord (nbits w : Nat) : Option Instr :=
  if nbits > 24 then none
  else
    let bits := w % 2 ^ nbits
    match decode (applicationBytes (BitVec.ofNat 16 bits) (BitVec.ofNat 8 (bits / 2 ^ 16))) with
    | .ok (i, _) => some i
    | .error _ => none

end Sys2Proof
end

