-- ==== Sys2Proof/Machine/State.lean ====
section
/-! DEFINITION. The machine's state as plain data, the reasons a step can stop, and the block at
power-up. The block stores nothing (10_state.md R12): the fields below hold the SETTLED values of
its ports and nets between two applications (70_reset_and_hazards.md R120, log 13), the stage
records and the applications still to be made. -/

namespace Sys2Proof.Machine

/-- The three decode outcomes (30_encoding.md R49, 60_exceptions.md R99). -/
inductive Status where
  | ok
  | corrected
  | unreadable
deriving DecidableEq, Repr

/-- The encoder group: its ports and its one net (10_state.md R20, R21, R25). -/
structure EncoderGroup where
  /-- Input port `enc_msg_in`; bits 15:11 are ignored. -/
  msgIn : Word
  /-- Net `cw_d`, the output of INSERT. -/
  cwD : Word
  /-- Output port `enc_cw_out`. -/
  cwOut : Word
deriving DecidableEq, Repr

/-- The decoder group: its ports and its four nets (10_state.md R20, R22 to R24). The ports
`dec_syndrome`, `dec_par_even` and `dec_status` are the nets `syn`, `par_even` and CORRECT's
`status`, so each is held once. -/
structure DecoderGroup where
  /-- Input port `dec_cw_in`. -/
  cwIn : Word
  /-- Net `syn` and output port `dec_syndrome`. -/
  syn : BitVec 4
  /-- Net `par_even` and output port `dec_par_even`: true is 1. -/
  parEven : Bool
  /-- Net `cw_fix`. -/
  cwFix : Word
  /-- Net `err_pos`. -/
  errPos : BitVec 5
  /-- Output port `dec_status`, coded as in 30_encoding.md R49. -/
  status : BitVec 2
  /-- Output port `dec_msg_out`. -/
  msgOut : Word
deriving DecidableEq, Repr

/-- INSERT evaluated on its own: operand and output (40_encoder.md R58). -/
structure InsertRecord where
  msg : Word
  cwD : Word
deriving DecidableEq, Repr

/-- PARGEN evaluated on its own: operand and output (40_encoder.md R59). -/
structure PargenRecord where
  cwD : Word
  cw : Word
deriving DecidableEq, Repr

/-- SYNDROME evaluated on its own: operand and outputs (41_syndrome.md R68). -/
structure SyndromeRecord where
  w : Word
  syn : BitVec 4
  parEven : Bool
deriving DecidableEq, Repr

/-- CORRECT evaluated on its own: operands and outputs (42_corrector.md R75). -/
structure CorrectRecord where
  w : Word
  syn : BitVec 4
  parEven : Bool
  cwFix : Word
  errPos : BitVec 5
  status : BitVec 2
deriving DecidableEq, Repr

/-- EXTRACT evaluated on its own: operand and output (43_decoder.md R85). -/
structure ExtractRecord where
  w : Word
  msg : Word
deriving DecidableEq, Repr

/-- The model's own records of the internal stages evaluated on their own (log 4). They are no part
of the block: no stage can be selected at the ports (30_encoding.md R41), so evaluating one leaves
every port and net as it is. -/
structure StageRecords where
  insert : InsertRecord
  pargen : PargenRecord
  syndrome : SyndromeRecord
  correct : CorrectRecord
  extract : ExtractRecord
deriving DecidableEq, Repr

/-- One application as the test bench presents it (30_encoding.md R55, 20_memory.md R35). -/
structure Application where
  /-- The word on the selected group's input port. -/
  word : Word
  /-- Which operation the word is applied to (log 2). -/
  selector : Byte
  /-- A 1 marks an input bit that is undriven, floating or unknown (10_state.md R28, log 9). -/
  undriven : Word
deriving DecidableEq, Repr

/-- The machine's state. -/
structure State where
  /-- The encoder group. -/
  enc : EncoderGroup
  /-- The decoder group. -/
  dec : DecoderGroup
  /-- The stage records, the model's own (log 4). -/
  stages : StageRecords
  /-- The applications presented and not yet made, the next one first (log 7). -/
  pending : List Application
deriving DecidableEq, Repr

/-- Why a step stops with a fault. -/
inductive Fault where
  /-- `dec_status` shows the reserved code `0b11`: what is read is not this block's settled output
  (30_encoding.md R51, 93_implementation_defined.md I3). Raised by `step`, never by an operation.
  Safe: no step the block can take is hidden (log 8). -/
  | reservedStatus
deriving DecidableEq, Repr

/-- Why a step gives an application no meaning. -/
inductive Refusal where
  /-- The instruction has no meaning yet. Raised by `exec` only. Safe. -/
  | notModelled (mnemonic : String)
  /-- An input bit is undriven, floating or unknown, so the model gives no output value
  (10_state.md R28, 92_eei_decisions.md D15). Raised by `step`. Safe (log 9). -/
  | undrivenInput
  /-- The bytes are no application of the block (00_scope.md R4). Raised by `step`. Safe. -/
  | undecodable (reason : DecodeError)
deriving DecidableEq, Repr

/-- The block at power-up (70_reset_and_hazards.md R112): both inputs at 0x0000 (DESIGN CHOICE,
log 1), every net and output its function of them (10_state.md R27), every stage record that of the
zero word (DESIGN CHOICE, log 4), nothing presented (log 7). -/
def State.reset : State where
  enc := { msgIn := 0#16, cwD := 0#16, cwOut := 0#16 }
  dec :=
    { cwIn := 0#16, syn := 0#4, parEven := true, cwFix := 0#16, errPos := 0#5, status := 0b00#2,
      msgOut := 0#16 }
  stages :=
    { insert := { msg := 0#16, cwD := 0#16 }
      pargen := { cwD := 0#16, cw := 0#16 }
      syndrome := { w := 0#16, syn := 0#4, parEven := true }
      correct :=
        { w := 0#16, syn := 0#4, parEven := true, cwFix := 0#16, errPos := 0#5, status := 0b00#2 }
      extract := { w := 0#16, msg := 0#16 } }
  pending := []

end Sys2Proof.Machine
end

