-- ==== Sys2Proof/Machine/Operands.lean ====
section
/-! DEFINITION. How the rules name the bits of a word: positions, message bits, containers, and the
diagnostic ports (00_scope.md R6 to R9, 30_encoding.md R42, R47). -/

namespace Sys2Proof.Machine

/-- `w⟨p⟩`, the bit at position `p` in 1..16 from the most significant bit (00_scope.md R6, R7). -/
def bitAt (w : Word) (p : Nat) : Bool := w.getLsbD (16 - p)

/-- The word whose only 1 is at position `p` in 1..16: `1 << (16 - p)` (00_scope.md R9). -/
def oneHot (p : Nat) : Word := 1#16 <<< (16 - p)

/-- `flip(w, p)`: the bit at position `p` in 1..16 inverted, and no other (00_scope.md R9). -/
def flipAt (w : Word) (p : Nat) : Word := w ^^^ oneHot p

/-- `if cond: v <- v OR ones`, the one assignment the rules' loops make (40_encoder.md R58, R59,
41_syndrome.md R68, 43_decoder.md R85). -/
def setWhen {n : Nat} (cond : Bool) (v ones : BitVec n) : BitVec n := if cond then v ||| ones else v

/-- `m[10:0]` of a message container: bits 15:11 are ignored (30_encoding.md R42, R52). -/
def message (container : Word) : BitVec 11 := container.setWidth 11

/-- `zext_16` of an 11-bit message: bits 15:11 of the container are 0 (00_scope.md R9, 43_decoder.md R91). -/
def zext16 (m : BitVec 11) : Word := m.setWidth 16

/-- The output port `dec_syndrome`, which is the net `syn` (10_state.md R23). -/
def State.decSyndrome (s : State) : BitVec 4 := s.dec.syn

/-- The output port `dec_par_even`, which is the net `par_even` (10_state.md R23). -/
def State.decParEven (s : State) : Bool := s.dec.parEven

end Sys2Proof.Machine
end

