-- ==== Sys2Proof/Machine/Flags.lean ====
section
/-! DEFINITION. Parities, checks and status codes. The block stores no flag (10_state.md R15): these
are the conditions its outputs are computed from. -/

namespace Sys2Proof.Machine

/-- `xor_reduce(v)`: the XOR of all bits of `v`, true exactly when their number of 1s is odd
(00_scope.md R9). -/
def xorReduce {n : Nat} (v : BitVec n) : Bool :=
  (List.range n).foldl (fun acc b => acc ^^ v.getLsbD b) false

/-- Positional check `i` of `w` is odd, so it fails (30_encoding.md R48). -/
def checkOdd (w : Word) (i : Fin 4) : Bool := xorReduce (w &&& parityCheckMask i)

/-- `well_formed(w)`: every positional check and the overall parity are even (30_encoding.md R46). -/
def wellFormedCodeword (w : Word) : Bool :=
  checkIndices.all (fun i => !checkOdd w i) && !xorReduce w

/-- The 2-bit code of a status (30_encoding.md R49, log 14). -/
def statusCode : Status → BitVec 2
  | .ok => 0b00#2
  | .corrected => 0b01#2
  | .unreadable => 0b10#2

/-- The code `0b11`, which the block never produces (30_encoding.md R49, R51). -/
def isReservedStatus (code : BitVec 2) : Bool := code == 0b11#2

end Sys2Proof.Machine
end

