-- ==== Sys2Proof/Machine/Ops.lean ====
section
/-! DEFINITION. The named writes of State. Each group's ports and nets change together, because they
are functions of that group's input alone (10_state.md R24 to R26). There is no memory operation
(20_memory.md R29) and no taking of, or return from, an exception (60_exceptions.md R98, R102, R103). -/

namespace Sys2Proof.Machine

/-- The encoder group settles on new values; nothing else changes (10_state.md R26). -/
def State.putEncoder (s : State) (g : EncoderGroup) : State := { s with enc := g }

/-- The decoder group settles on new values; nothing else changes (10_state.md R26). -/
def State.putDecoder (s : State) (g : DecoderGroup) : State := { s with dec := g }

/-- Record an evaluation of INSERT on its own (log 4). -/
def State.putInsert (s : State) (r : InsertRecord) : State :=
  { s with stages := { s.stages with insert := r } }

/-- Record an evaluation of PARGEN on its own (log 4). -/
def State.putPargen (s : State) (r : PargenRecord) : State :=
  { s with stages := { s.stages with pargen := r } }

/-- Record an evaluation of SYNDROME on its own (log 4). -/
def State.putSyndrome (s : State) (r : SyndromeRecord) : State :=
  { s with stages := { s.stages with syndrome := r } }

/-- Record an evaluation of CORRECT on its own (log 4). -/
def State.putCorrect (s : State) (r : CorrectRecord) : State :=
  { s with stages := { s.stages with correct := r } }

/-- Record an evaluation of EXTRACT on its own (log 4). -/
def State.putExtract (s : State) (r : ExtractRecord) : State :=
  { s with stages := { s.stages with extract := r } }

/-- Move past the applications before `rest`. -/
def State.putPending (s : State) (rest : List Application) : State := { s with pending := rest }

end Sys2Proof.Machine
end

