-- ==== Sys2Proof/Machine/Syndrome.lean ====
section
/-! DEFINITION. The syndrome parity computer: SYNDROME (spec/41_syndrome.md). -/

namespace Sys2Proof.Machine

/-- The `syn` output of SYNDROME: bit `i` is 1 exactly when check `i` is odd (41_syndrome.md R68). -/
def syndromeOf (w : Word) : BitVec 4 :=
  checkIndices.foldl (fun syn i => setWhen (checkOdd w i) syn (1#4 <<< i.val)) 0#4

/-- The `par_even` output of SYNDROME: the NOT of the parity of all 16 bits (41_syndrome.md R68). -/
def parityEven (w : Word) : Bool := !xorReduce w

/-- SYNDROME on its own (41_syndrome.md R68, log 4). -/
def execSyndrome (w : Word) (s : State) : Host.Outcome State Fault Refusal :=
  .next (s.putSyndrome { w := w, syn := syndromeOf w, parEven := parityEven w })

end Sys2Proof.Machine
end

