-- ==== Sys2Proof/Machine/Corrector.lean ====
section
/-! DEFINITION. The single-bit error corrector: CORRECT (spec/42_corrector.md). -/

namespace Sys2Proof.Machine

/-- The outputs of CORRECT (42_corrector.md R75). -/
structure Correction where
  cwFix : Word
  errPos : BitVec 5
  status : Status
deriving DecidableEq, Repr

/-- CORRECT: the decision table, its rows in the source's order (42_corrector.md R75 to R79). -/
def correctWord (w : Word) (syn : BitVec 4) (parEven : Bool) : Correction :=
  if syn ≠ 0#4 ∧ parEven = true then
    { cwFix := w, errPos := 0#5, status := .unreadable }
  else if syn = 0#4 ∧ parEven = false then
    { cwFix := flipAt w 16, errPos := 16#5, status := .corrected }
  else if syn = 0#4 ∧ parEven = true then
    { cwFix := w, errPos := 0#5, status := .ok }
  else
    { cwFix := flipAt w syn.toNat, errPos := syn.setWidth 5, status := .corrected }

/-- CORRECT with its operands `syn` and `par_even` from SYNDROME of the same word
(42_corrector.md R75, log 12). -/
def correctReceived (w : Word) : Correction := correctWord w (syndromeOf w) (parityEven w)

/-- The record of CORRECT evaluated on its own. -/
def correctRecord (w : Word) : CorrectRecord :=
  { w := w
    syn := syndromeOf w
    parEven := parityEven w
    cwFix := (correctReceived w).cwFix
    errPos := (correctReceived w).errPos
    status := statusCode (correctReceived w).status }

/-- CORRECT on its own (42_corrector.md R75, log 4). -/
def execCorrect (w : Word) (s : State) : Host.Outcome State Fault Refusal :=
  .next (s.putCorrect (correctRecord w))

end Sys2Proof.Machine
end

