-- ==== Sys2Proof/Machine/Decoder.lean ====
section
/-! DEFINITION. The decoder family: EXTRACT and DECODE (spec/43_decoder.md). -/

namespace Sys2Proof.Machine

/-- The 11 message bits at the data positions of a word: `m[10 - k]` is the bit at `DATA_POS[k]`
(43_decoder.md R85, 30_encoding.md R47). -/
def extractMessage (w : Word) : BitVec 11 :=
  dataPos.zipIdx.foldl
    (fun m pk => setWhen (bitAt w pk.1) m (1#11 <<< (10 - pk.2))) 0#11

/-- EXTRACT: the message in its container, bits 15:11 at 0 (43_decoder.md R85, R91). -/
def extractWord (w : Word) : Word := zext16 (extractMessage w)

/-- What DECODE puts on `dec_msg_out`: a free 11-bit value on UNREADABLE, else EXTRACT of the
corrected word (43_decoder.md R87 to R90, log 5). -/
def decodedMessage (cwIn : Word) (c : Correction) : Word :=
  match c.status with
  | .unreadable => zext16 (Config.draw11 cwIn)
  | .ok => extractWord c.cwFix
  | .corrected => extractWord c.cwFix

/-- The decoder group settled on an input: DECODE and the nets (43_decoder.md R87, 10_state.md R22
to R24). -/
def settleDecoder (cwIn : Word) : DecoderGroup :=
  { cwIn := cwIn
    syn := syndromeOf cwIn
    parEven := parityEven cwIn
    cwFix := (correctReceived cwIn).cwFix
    errPos := (correctReceived cwIn).errPos
    status := statusCode (correctReceived cwIn).status
    msgOut := decodedMessage cwIn (correctReceived cwIn) }

/-- EXTRACT on its own (43_decoder.md R85, log 4). -/
def execExtract (w : Word) (s : State) : Host.Outcome State Fault Refusal :=
  .next (s.putExtract { w := w, msg := extractWord w })

/-- DECODE (43_decoder.md R87): every input gets a status, none traps (30_encoding.md R51). -/
def execDecode (cwIn : Word) (s : State) : Host.Outcome State Fault Refusal :=
  .next (s.putDecoder (settleDecoder cwIn))

end Sys2Proof.Machine
end

