-- ==== Sys2Proof/Machine/Encoder.lean ====
section
/-! DEFINITION. The encoder family: INSERT, PARGEN and ENCODE (spec/40_encoder.md). -/

namespace Sys2Proof.Machine

/-- INSERT: message bit `m[10 - k]` goes to position `DATA_POS[k]`, for k in 0..10
(40_encoder.md R58, 30_encoding.md R47). -/
def insertWord (msg : Word) : Word :=
  dataPos.zipIdx.foldl
    (fun cwD pk => setWhen ((message msg).getLsbD (10 - pk.2)) cwD (oneHot pk.1)) 0#16

/-- The four positional steps of PARGEN: if check `i` is odd, position `2^i` is set
(40_encoder.md R59, 90_conflicts.md C1). -/
def setPositionalParities (cwD : Word) : Word :=
  checkIndices.foldl (fun cw i => setWhen (checkOdd cw i) cw (oneHot (2 ^ i.val))) cwD

/-- The last step of PARGEN: if the parity of the word so far is odd, position 16 is set
(40_encoder.md R59). -/
def setOverallParity (cw : Word) : Word := setWhen (xorReduce cw) cw (oneHot 16)

/-- PARGEN: the positional parities, then the overall parity (40_encoder.md R59). On a word with a 1
at a parity position, which no port can give it, this is the pseudocode evaluated as it stands
(93_implementation_defined.md I7, log 6). -/
def pargenWord (cwD : Word) : Word := setOverallParity (setPositionalParities cwD)

/-- ENCODE: INSERT, then PARGEN (40_encoder.md R62). -/
def encodeWord (msgIn : Word) : Word := pargenWord (insertWord msgIn)

/-- The encoder group settled on an input (10_state.md R21, R25). -/
def settleEncoder (msgIn : Word) : EncoderGroup :=
  { msgIn := msgIn, cwD := insertWord msgIn, cwOut := encodeWord msgIn }

/-- INSERT on its own (40_encoder.md R58, log 4). -/
def execInsert (msg : Word) (s : State) : Host.Outcome State Fault Refusal :=
  .next (s.putInsert { msg := msg, cwD := insertWord msg })

/-- PARGEN on its own (40_encoder.md R59, log 4). -/
def execPargen (cwD : Word) (s : State) : Host.Outcome State Fault Refusal :=
  .next (s.putPargen { cwD := cwD, cw := pargenWord cwD })

/-- ENCODE (40_encoder.md R62): no status, no fault, for any of the 65536 inputs (R66). -/
def execEncode (msgIn : Word) (s : State) : Host.Outcome State Fault Refusal :=
  .next (s.putEncoder (settleEncoder msgIn))

end Sys2Proof.Machine
end

