-- ==== Sys2Proof/Machine/Dispatch.lean ====
section
/-! DEFINITION. One arm per constructor of Instr. -/

namespace Sys2Proof.Machine

/-- The meaning of each operation (30_encoding.md R41). -/
def exec (i : Instr) (s : State) : Host.Outcome State Fault Refusal :=
  match i with
  | .encode msgIn => Sys2Proof.Machine.execEncode msgIn s
  | .decode cwIn => Sys2Proof.Machine.execDecode cwIn s
  | .insert msg => Sys2Proof.Machine.execInsert msg s
  | .pargen cwD => Sys2Proof.Machine.execPargen cwD s
  | .syndrome w => Sys2Proof.Machine.execSyndrome w s
  | .correct w => Sys2Proof.Machine.execCorrect w s
  | .extract w => Sys2Proof.Machine.execExtract w s

end Sys2Proof.Machine
end

