-- ==== Sys2Proof/Machine/Fetch.lean ====
section
/-! DEFINITION. Taking the next application from what the test bench has presented. -/

namespace Sys2Proof.Machine

/-- What the head of `pending` asks of the block. -/
inductive Fetched where
  /-- Nothing is presented: the inputs stay as they are. -/
  | idle
  /-- An input bit has no value (10_state.md R28). -/
  | undriven
  /-- The bytes are no application of the block. -/
  | undecodable (reason : DecodeError)
  /-- An application, and the applications after it. -/
  | application (i : Instr) (rest : List Application)
deriving DecidableEq, Repr

/-- An application in the decoder's layout (log 3). -/
def bytesOf (a : Application) : List Byte := applicationBytes a.word a.selector

/-- An application whose 16 input bits all have a value (10_state.md R28). -/
def isDriven (a : Application) : Bool := a.undriven == 0#16

/-- The next application (log 7). An undriven bit is refused before the word is read, whichever bit
it is (10_state.md R28, log 9). -/
def fetch : List Application → Fetched
  | [] => .idle
  | a :: rest =>
    if isDriven a then
      match decode (bytesOf a) with
      | .ok (i, _) => .application i rest
      | .error e => .undecodable e
    else .undriven

/-- The application whose bits are `w`, numbered as spec/opcode_table.json numbers them, the bits
above `nbits` being 0, with every input bit driven. -/
def applicationOfTableWord (nbits w : Nat) : Application :=
  { word := BitVec.ofNat 16 (w % 2 ^ nbits)
    selector := BitVec.ofNat 8 (w % 2 ^ nbits / 2 ^ 16)
    undriven := 0#16 }

end Sys2Proof.Machine
end

