-- ==== Sys2Proof/Machine/Run.lean ====
section
/-! DEFINITION. Running what was fetched: one application is one atomic change from an input word to
settled outputs (70_reset_and_hazards.md R120). -/

namespace Sys2Proof.Machine

/-- Run what was fetched. With nothing presented the inputs stay, so every output stays
(10_state.md R12, log 7). -/
def runFetched (f : Fetched) (s : State) : Host.Outcome State Fault Refusal :=
  match f with
  | .idle => .next s
  | .undriven => .refused .undrivenInput
  | .undecodable e => .refused (.undecodable e)
  | .application i rest => exec i (s.putPending rest)

/-- A state that shows `0b11` on `dec_status` is not this block's settled output and faults
(30_encoding.md R51, log 8); any other makes the next application. -/
def applyNext (s : State) : Host.Outcome State Fault Refusal :=
  if isReservedStatus s.dec.status then .fault .reservedStatus
  else runFetched (fetch s.pending) s

end Sys2Proof.Machine
end

