-- ==== Sys2Proof/Machine/Step.lean ====
section
/-! DEFINITION. The step, and how the host presents an application to it. -/

namespace Sys2Proof.Machine

/-- One step: one application (70_reset_and_hazards.md R120). -/
def step (s : State) : Host.Outcome State Fault Refusal := applyNext s

/-- `s` with an application presented ahead of all others (log 7): the next step makes it. -/
def State.withFetchWord (s : State) (nbits w : Nat) : State :=
  s.putPending (applicationOfTableWord nbits w :: s.pending)

end Sys2Proof.Machine
end

