-- ==== Sys2Proof/Safety.lean ====
section
/-! DEFINITION. The terms claims are stated in: settled and legal states, safe steps, and the closed
forms the rules give beside their pseudocode, written out from the spec's equations and not from the
machine's definitions. -/

namespace Sys2Proof.Machine

/-- The encoder group shows the settled values of its input (10_state.md R21, R25). -/
structure EncoderGroup.Settled (g : EncoderGroup) : Prop where
  cwD_eq : g.cwD = insertWord g.msgIn
  cwOut_eq : g.cwOut = encodeWord g.msgIn

/-- The decoder group shows the settled values of its input (10_state.md R22 to R24). -/
structure DecoderGroup.Settled (g : DecoderGroup) : Prop where
  syn_eq : g.syn = syndromeOf g.cwIn
  parEven_eq : g.parEven = parityEven g.cwIn
  cwFix_eq : g.cwFix = (correctReceived g.cwIn).cwFix
  errPos_eq : g.errPos = (correctReceived g.cwIn).errPos
  status_eq : g.status = statusCode (correctReceived g.cwIn).status
  msgOut_eq : g.msgOut = decodedMessage g.cwIn (correctReceived g.cwIn)

/-- Every stage record holds its stage's outputs for the operands it holds (log 4). -/
structure StageRecords.Settled (r : StageRecords) : Prop where
  insert_eq : r.insert.cwD = insertWord r.insert.msg
  pargen_eq : r.pargen.cw = pargenWord r.pargen.cwD
  syndrome_eq : r.syndrome = ⟨r.syndrome.w, syndromeOf r.syndrome.w, parityEven r.syndrome.w⟩
  correct_eq : r.correct = correctRecord r.correct.w
  extract_eq : r.extract.msg = extractWord r.extract.w

/-- Every port, net and record is the rules' function of its operands: what the block shows between
two applications (10_state.md R12, 70_reset_and_hazards.md R112). -/
structure State.Settled (s : State) : Prop where
  enc : s.enc.Settled
  dec : s.dec.Settled
  stages : s.stages.Settled

/-- The ranges the spec gives the ports and nets, and the stage records with them: parity positions
of `cw_d` at 0 (40_encoder.md R58), `err_pos` at most 16 (30_encoding.md R50), `0b11` on no status
(R51), bits 15:11 of every message output at 0 (43_decoder.md R91). -/
structure State.InRange (s : State) : Prop where
  cwD : s.enc.cwD &&& 0xD101#16 = 0#16
  errPos : s.dec.errPos.toNat ≤ 16
  status : s.dec.status ≠ 0b11#2
  msgOut : s.dec.msgOut &&& 0xF800#16 = 0#16
  insertCwD : s.stages.insert.cwD &&& 0xD101#16 = 0#16
  correctErrPos : s.stages.correct.errPos.toNat ≤ 16
  correctStatus : s.stages.correct.status ≠ 0b11#2
  extractMsg : s.stages.extract.msg &&& 0xF800#16 = 0#16

/-- A step that does not fault: the block raises nothing (60_exceptions.md R98). -/
def SafeStep (s : State) : Prop := ∀ f : Fault, step s ≠ .fault f

/-- The number of 1 bits of a word. -/
def weight (w : Word) : Nat := (List.range 16).countP (fun b => w.getLsbD b)

/-- The word CORRECT inverts: one-hot at `err_pos`, or 0 when nothing is inverted
(42_corrector.md R80, 43_decoder.md R92). -/
def invertedBits (errPos : BitVec 5) : Word := if errPos = 0#5 then 0#16 else oneHot errPos.toNat

/-- `{b15, b14, ...}`: concatenation of single bits, the most significant first (00_scope.md R9). -/
def concatBits {n : Nat} (bits : List Bool) : BitVec n :=
  bits.foldl (fun acc b => (acc <<< 1) ||| (BitVec.ofBool b).setWidth n) 0#n

/-- INSERT's concatenation form `{0, 0, m[10], 0, m[9:7], 0, m[6:0], 0}` (40_encoder.md R58). -/
def insertConcat (msg : Word) : Word :=
  let m := fun j : Nat => msg.getLsbD j
  concatBits [false, false, m 10, false, m 9, m 8, m 7, false, m 6, m 5, m 4, m 3, m 2, m 1, m 0, false]

/-- EXTRACT's concatenation form `zext_16({w[13], w[11:9], w[7:1]})` (43_decoder.md R85). -/
def extractConcat (w : Word) : Word :=
  let b := fun k : Nat => w.getLsbD k
  concatBits [b 13, b 11, b 10, b 9, b 7, b 6, b 5, b 4, b 3, b 2, b 1]

/-- XOR of the named bits of a word. -/
def xorBits (w : Word) : List Nat → Bool
  | [] => false
  | b :: bs => w.getLsbD b ^^ xorBits w bs

/-- The codeword `{P1, P2, m10, P4, m9, m8, m7, P8, m6, ..., m0, P16}` with the parity equations of
40_encoder.md R61. -/
def encodeConcat (msg : Word) : Word :=
  let m := fun j : Nat => msg.getLsbD j
  let p1 := xorBits msg [10, 9, 7, 6, 4, 2, 0]
  let p2 := xorBits msg [10, 8, 7, 5, 4, 1, 0]
  let p4 := xorBits msg [9, 8, 7, 3, 2, 1, 0]
  let p8 := xorBits msg [6, 5, 4, 3, 2, 1, 0]
  let p16 := xorBits msg [10, 9, 8, 6, 5, 3, 0]
  concatBits [p1, p2, m 10, p4, m 9, m 8, m 7, p8, m 6, m 5, m 4, m 3, m 2, m 1, m 0, p16]

/-- `syn[3:0]` by the check equations of 41_syndrome.md R73. -/
def syndromeEquations (w : Word) : BitVec 4 :=
  concatBits
    [xorBits w [8, 7, 6, 5, 4, 3, 2, 1], xorBits w [12, 11, 10, 9, 4, 3, 2, 1],
      xorBits w [14, 13, 10, 9, 6, 5, 2, 1], xorBits w [15, 13, 11, 9, 7, 5, 3, 1]]

/-- `par_even` by the check equation of 41_syndrome.md R73. -/
def parityEquation (w : Word) : Bool :=
  !xorBits w [15, 14, 13, 12, 11, 10, 9, 8, 7, 6, 5, 4, 3, 2, 1, 0]

/-- `syn(w)` as the XOR of the 4-bit numbers `p` over the positions `p` in 1..15 that hold a 1
(41_syndrome.md R70). -/
def syndromeAsPositionSum (w : Word) : BitVec 4 :=
  (List.range' 1 15).foldl (fun acc p => if bitAt w p then acc ^^^ BitVec.ofNat 4 p else acc) 0#4

end Sys2Proof.Machine
end

