-- ==== Sys2Proof/Certificates/Slice0/Obligations.lean ====
section
/-! DEFINITION. The statements for the provers, from the numbered rules of spec/. A law the spec marks
as its own derivation or decision is named as such; what the model chose is named by its log entry. -/

open Sys2Proof Sys2Proof.Machine

/-- At power-up every port, net and stage record is the rules' function of its operands, and in
range. State.reset is settled and in range. The input words it is settled on, 0x0000 on both groups,
are the model's choice (log 1), as are the operands of the stage records (log 4). The status codes
are the spec's decision D3 (log 14). (derived: 70_reset_and_hazards.md section 1, 10_state.md
section 5, 10_state.md section 3, 10_state.md section 4, 40_encoder.md section 2, 30_encoding.md
section 5, 30_encoding.md section 6, 43_decoder.md section 2, 43_decoder.md section 3.) -/
def Obligations.PowerUpStateIsSettled : Prop :=
  State.reset.Settled ∧ State.reset.InRange

/-- Every step keeps every port and net at the rules' function of its group's input. From any
settled state, if the step answers a next state, that state is settled: enc_cw_out is ENCODE of
enc_msg_in, the decoder outputs are DECODE of dec_cw_in, the nets follow, and every stage record
(the model's own, log 4) agrees with its stage. What UNREADABLE puts on dec_msg_out is the free
value of log 5, whatever it is. The status codes, and CORRECTED for syn 0 with odd parity, are the
spec's decisions D3 and D4 (log 14). (derived: 10_state.md section 3, 10_state.md section 4,
70_reset_and_hazards.md section 1.) -/
def Obligations.StepKeepsSettled : Prop :=
  ∀ s t : State, s.Settled → step s = .next t → t.Settled

/-- Every step keeps the ports and nets in the ranges the spec gives them. From any state in range,
settled or not, a next state is in range: the parity positions of cw_d are 0, err_pos is at most 16,
0b11 is on no status, bits 15:11 of every message output are 0. The stage records are the model's
own (log 4), the status codes the spec's decision D3 (log 14). (derived: 30_encoding.md section 5,
30_encoding.md section 6, 43_decoder.md section 3, 10_state.md section 4, 40_encoder.md section 2,
43_decoder.md section 2.) -/
def Obligations.StepKeepsPortsInRange : Prop :=
  ∀ s t : State, s.InRange → step s = .next t → t.InRange

/-- A settled state is in range. In every settled state the parity positions of cw_d are 0, err_pos
is at most 16, 0b11 is on no status and bits 15:11 of every message output are 0, for every free
value of log 5. The stage records, and so their ranges, are the model's own (log 4), the status
codes the spec's decision D3 (log 14). (derived: 10_state.md section 4, 30_encoding.md section 5,
43_decoder.md section 3, 40_encoder.md section 2, 30_encoding.md section 6, 43_decoder.md section
2.) -/
def Obligations.SettledStatesAreInRange : Prop :=
  ∀ s : State, s.Settled → s.InRange

/-- Decoding an encoded well-formed instruction gives it back, with every operand bit. For every
well-formed instruction and whatever bytes follow, decode of its bytes gives the instruction and
those bytes. The selector byte and the byte layout are the model's choice (logs 2 and 3), as is that
a word off PARGEN's pattern is not well-formed (log 6). (derived: 30_encoding.md section 1,
30_encoding.md section 7, 93_implementation_defined.md part 1, I7.) -/
def Obligations.DecodeReadsBackEveryEncoding : Prop :=
  ∀ (i : Instr) (rest : List Byte), i.WellFormed → decode (encode i ++ rest) = .ok (i, rest)

/-- Every accepted byte string is the encoding of the well-formed instruction it decodes to. If
decode accepts bytes as an instruction, the instruction is well-formed and the bytes are its
encoding followed by the rest, so byte strings that decode to the same instruction with the same
rest are equal. The selectors (log 2), the byte layout (log 3) and the refusal of words off PARGEN's
pattern (log 6) are the model's choice. (derived: 30_encoding.md section 1, 30_encoding.md section
7, 93_implementation_defined.md part 1, I7.) -/
def Obligations.DecodeAcceptsOnlyEncodings : Prop :=
  ∀ (bytes rest : List Byte) (i : Instr),
      decode bytes = .ok (i, rest) → i.WellFormed ∧ bytes = encode i ++ rest

/-- The decoder refuses short input, the 249 unused selectors and words off PARGEN's pattern, each
by name. Fewer than three bytes are truncated, by the model's three-byte layout (log 3). A selector
above 6 is reserved, with that selector. Selector 3 with a word that has a 1 at a parity position is
refused as no word of PARGEN's pattern. Selectors are the model's choice (log 2), the PARGEN refusal
log 6. (derived: 00_scope.md section 1, 93_implementation_defined.md part 1, I7, 30_encoding.md
section 7.) -/
def Obligations.DecoderRefusesByName : Prop :=
  (∀ bytes : List Byte, bytes.length < 3 → decode bytes = .error .truncated) ∧
    (∀ (lo hi sel : Byte) (rest : List Byte), 6 < sel.toNat →
      decode (lo :: hi :: sel :: rest) = .error (.reservedSelector sel)) ∧
    (∀ (lo hi : Byte) (rest : List Byte), (hi ++ lo : Word) &&& 0xD101#16 ≠ 0#16 →
      decode (lo :: hi :: 3#8 :: rest) = .error (.parityPositionSet (hi ++ lo)))

/-- Words written out bit by bit from the table's patterns decode to their instructions. One word
for each operation, written as its bits in the table's order, decodes under that operation's
selector to the instruction with that word. The bits are the table's; that they come as low byte,
high byte, selector is the model's layout (log 3, the block has no byte order), the selectors and
the reading of a bare 16-bit word as an ENCODE its choice too (log 2). (derived: 30_encoding.md
section 1, 95_test_vectors.md part 2, 20_memory.md section 2.) -/
def Obligations.WrittenOutWordsDecode : Prop :=
  decode [0b00100011#8, 0b00000001#8, 0#8] = .ok (.encode 0b0000000100100011#16, []) ∧
    decode [0b01000111#8, 0b10010001#8, 1#8] = .ok (.decode 0b1001000101000111#16, []) ∧
    decode [0b00100011#8, 0b10000001#8, 2#8] = .ok (.insert 0b1000000100100011#16, []) ∧
    decode [0b01000110#8, 0b00000100#8, 3#8] = .ok (.pargen 0b0000010001000110#16, []) ∧
    decode [0b00110100#8, 0b00010010#8, 4#8] = .ok (.syndrome 0b0001001000110100#16, []) ∧
    decode [0b01000111#8, 0b00010101#8, 5#8] = .ok (.correct 0b0001010101000111#16, []) ∧
    decode [0b00000001#8, 0b11010001#8, 6#8] = .ok (.extract 0b1101000100000001#16, []) ∧
    decodeTableWord 16 0x0123 = some (.encode 0x0123#16)

/-- A step is exec of the decoded application, at the state past it. When the status shown is not
0b11 and the next application is fully driven and decodes to i, the step is exec of i at the state
whose pending list has moved past it. The pending list is the model's (log 7), as are the selector
and the layout of the bytes (logs 2 and 3), the mask of undriven bits (log 9) and one application a
step (log 13). Status codes are the spec's decision D3 (log 14). (derived: 70_reset_and_hazards.md
section 4, 30_encoding.md section 7, 30_encoding.md section 1, 30_encoding.md section 6.) -/
def Obligations.StepRunsTheDecodedApplication : Prop :=
  ∀ (s : State) (a : Application) (rest : List Application) (i : Instr) (left : List Byte),
      s.dec.status ≠ 0b11#2 → s.pending = a :: rest → a.undriven = 0#16 →
      decode (applicationBytes a.word a.selector) = .ok (i, left) →
      step s = exec i { s with pending := rest }

/-- Presenting any well-formed instruction makes the very next step run exactly it. From every state
that does not show 0b11 on dec_status, presenting the bits of a well-formed instruction makes the
step exec of that instruction at that state. A bare 16-bit word runs ENCODE of it. Selector and
presentation are the model's (logs 2 and 7), as are the running of a stage on its own (log 4) and
the well-formedness of PARGEN's words (log 6). Status codes are the spec's decision D3 (log 14).
(derived: 30_encoding.md section 1, 30_encoding.md section 7, 30_encoding.md section 6.) -/
def Obligations.EveryInstructionRunsWhenPresented : Prop :=
  (∀ (s : State) (i : Instr), s.dec.status ≠ 0b11#2 → i.WellFormed →
      step (s.withFetchWord 24 (i.selector.toNat * 2 ^ 16 + i.word.toNat)) = exec i s) ∧
    (∀ (s : State) (w : Word), s.dec.status ≠ 0b11#2 →
      step (s.withFetchWord 16 w.toNat) = exec (.encode w) s)

/-- With nothing presented a step leaves every port and net as it is. When the pending list is empty
and the status shown is not 0b11, the step answers the same state. That such a step exists is the
model's choice (log 7). Status codes are the spec's decision D3 (log 14). (derived: 10_state.md
section 1, 20_memory.md section 3, 30_encoding.md section 6.) -/
def Obligations.StepWithNothingPresentedChangesNothing : Prop :=
  ∀ s : State, s.dec.status ≠ 0b11#2 → s.pending = [] → step s = .next s

/-- An application with an undriven, floating or unknown bit is refused and gives no output.
Whatever the word, the selector and the bit, an application with an undriven bit is refused by name,
so no output gets a value. The decision is the spec's D15; its form is log 9, the pending list log
7. Status codes are the spec's decision D3 (log 14). (derived: 10_state.md section 5,
92_eei_decisions.md D15, 93_implementation_defined.md part 1, I6, 30_encoding.md section 6.) -/
def Obligations.UndrivenInputIsRefused : Prop :=
  ∀ (s : State) (a : Application) (rest : List Application),
      s.dec.status ≠ 0b11#2 → s.pending = a :: rest → a.undriven ≠ 0#16 →
      step s = .refused .undrivenInput

/-- A step faults exactly when dec_status shows the reserved code 0b11. The only fault is meeting
0b11 on dec_status: a step answers a fault if and only if its state shows that code. The code is the
spec's decision D3, the place of the check log 8. Status codes are the spec's decision D3 (log 14).
(derived: 30_encoding.md section 6, 93_implementation_defined.md part 1, I3.) -/
def Obligations.StepFaultsExactlyOnTheReservedStatus : Prop :=
  ∀ s : State, (∃ f : Fault, step s = .fault f) ↔ s.dec.status = 0b11#2

/-- From a settled state the step does not fault, and neither does the next step. In every settled
state the step answers no fault, and if it answers a next state, the step from that state answers
none. The place of the only check that can fault is log 8. Settled covers the stage records too,
which are the model's own (log 4). The status codes are the spec's decision D3 (log 14). (derived:
60_exceptions.md section 1, 30_encoding.md section 6.) -/
def Obligations.SettledStatesNeverFault : Prop :=
  ∀ s : State, s.Settled → SafeStep s ∧ ∀ t : State, step s = .next t → SafeStep t

/-- No input to any operation raises a fault, trap or refusal. For every instruction, at every
operand and in every state, exec answers a next state: no input raises an exception, trap, abort or
fault. The condition a DECODE finds is reported as one of the three statuses on dec_status, together
with the message it puts on dec_msg_out, and ENCODE leaves dec_status as it was. For ENCODE and
DECODE this is rule R98. That the other five complete on their own is the model's choice (log 4), as
is PARGEN on a word off its pattern, which the decoder refuses and the meaning evaluates (log 6).
Status codes are the spec's decision D3 (log 14). (derived: 60_exceptions.md section 1,
43_decoder.md section 3, 40_encoder.md section 2, 40_encoder.md section 3, 40_encoder.md section 4,
41_syndrome.md section 2, 42_corrector.md section 2, 43_decoder.md section 2.) -/
def Obligations.EveryOperationCompletesOnEveryInput : Prop :=
  (∀ (i : Instr) (s : State), ∃ t : State, exec i s = .next t) ∧
    (∀ (w : Word) (s : State), ∃ t : State, exec (.decode w) s = .next t ∧
      ((∃ st : Status, t.dec.status = statusCode st) ∧ ∃ m : BitVec 11, t.dec.msgOut = m.setWidth 16)) ∧
    (∀ (w : Word) (s : State), ∃ t : State, exec (.encode w) s = .next t ∧ t.dec.status = s.dec.status)

/-- Frame: ENCODE changes only the encoder group, DECODE only the decoder group, a stage on its own
only its record. Every operation answers a next state that agrees with the state before on
everything but the named part, including the applications still to be made. That a stage evaluated
on its own writes a record and no port or net is the model's choice (log 4), as is PARGEN on a word
off its pattern (log 6). (derived: 10_state.md section 4, 20_memory.md section 3, 30_encoding.md
section 1.) -/
def Obligations.OperationsChangeOnlyTheirOwnGroup : Prop :=
  ∀ (i : Instr) (s : State), ∃ t : State, exec i s = .next t ∧ t.pending = s.pending ∧
    match i with
    | .encode w => t.enc.msgIn = w ∧ t.dec = s.dec ∧ t.stages = s.stages
    | .decode w => t.dec.cwIn = w ∧ t.enc = s.enc ∧ t.stages = s.stages
    | .insert w => t.enc = s.enc ∧ t.dec = s.dec ∧
        ∃ r : InsertRecord, r.msg = w ∧ t.stages = { s.stages with insert := r }
    | .pargen w => t.enc = s.enc ∧ t.dec = s.dec ∧
        ∃ r : PargenRecord, r.cwD = w ∧ t.stages = { s.stages with pargen := r }
    | .syndrome w => t.enc = s.enc ∧ t.dec = s.dec ∧
        ∃ r : SyndromeRecord, r.w = w ∧ t.stages = { s.stages with syndrome := r }
    | .correct w => t.enc = s.enc ∧ t.dec = s.dec ∧
        ∃ r : CorrectRecord, r.w = w ∧ t.stages = { s.stages with correct := r }
    | .extract w => t.enc = s.enc ∧ t.dec = s.dec ∧
        ∃ r : ExtractRecord, r.w = w ∧ t.stages = { s.stages with extract := r }

/-- ENCODE and DECODE do not interact: both orders give the same state. For every two words and
every state, ENCODE of one then DECODE of the other answers the same state as the other order, and
that state shows on each group what that operation alone gives. The spec's decision D9; that one
step makes one application is log 13. (derived: 10_state.md section 4, 20_memory.md section 5,
60_exceptions.md section 3.) -/
def Obligations.ApplicationsToTheTwoGroupsCommute : Prop :=
  ∀ (x c : Word) (s : State), ∃ e d t : State,
      exec (.encode x) s = .next e ∧ exec (.decode c) s = .next d ∧
      exec (.decode c) e = .next t ∧ exec (.encode x) d = .next t ∧ t.enc = e.enc ∧ t.dec = d.dec

/-- Applying the same input again gives the same outputs and changes nothing. After any operation on
any word in any state, the same operation on the same word answers the same state again. And an
application changes nothing in the block but the ports and nets of the group it is applied to: an
encoder input leaves the decoder group, a decoder input the encoder group, and a stage alone both.
For ENCODE and DECODE this is rule R36. That a stage runs alone, writes a record and leaves both
groups is the model's choice (log 4), as is PARGEN on a word off its pattern (log 6). (derived:
20_memory.md section 3, 10_state.md section 1.) -/
def Obligations.OperationsAreIdempotent : Prop :=
  ∀ (i : Instr) (s : State), ∃ t : State, exec i s = .next t ∧ exec i t = .next t ∧
    ((∀ x : Word, i ≠ .encode x) → t.enc = s.enc) ∧ ((∀ c : Word, i ≠ .decode c) → t.dec = s.dec)

/-- Outputs are a function of the present input alone, the unreadable message included. For each
word there is one encoder group and one decoder group of values that ENCODE and DECODE of it give in
every state, whatever came before. So the free message of an unreadable word (log 5) is the same at
every application of that word. (derived: 10_state.md section 1, 43_decoder.md section 4.) -/
def Obligations.OutputsDependOnThePresentInputAlone : Prop :=
  ∀ w : Word,
      (∃ g : EncoderGroup, ∀ s : State, exec (.encode w) s = .next { s with enc := g }) ∧
      (∃ g : DecoderGroup, ∀ s : State, exec (.decode w) s = .next { s with dec := g })

/-- PM_i selects exactly the positions 1..15 whose index has bit i set, and has the listed value.
For each check i and position p in 1..16, PM_i holds a 1 at p exactly when p is at most 15 and bit i
of p is 1. The four values are the listed ones; R44 marks them as derived from R6 and R7, and here
they follow from the clause on positions. No mask selects position 16, and among the parity
positions PM_i selects exactly 2^i. (stated: R44.) -/
def Obligations.ParityCheckMasksSelectTheirPositions : Prop :=
  (∀ (i : Fin 4) (p : Fin 17), 1 ≤ p.val →
      bitAt (parityCheckMask i) p.val = (decide (p.val ≤ 15) && p.val.testBit i.val)) ∧
    [parityCheckMask 0, parityCheckMask 1, parityCheckMask 2, parityCheckMask 3] =
      [0xAAAA#16, 0x6666#16, 0x1E1E#16, 0x01FE#16] ∧
    (∀ i : Fin 4, bitAt (parityCheckMask i) 16 = false ∧
      [1, 2, 4, 8].filter (fun p => bitAt (parityCheckMask i) p) = [2 ^ i.val])

/-- DM_0, DM_1, DM_2 have the listed values, cover DATA_POS, and leave exactly the five parity
positions. The masks have the listed values; their union holds a 1 exactly at the positions of
DATA_POS; the parity mask is its complement, the positions 1, 2, 4, 8 and 16. (derived:
30_encoding.md section 3, 90_conflicts.md C10, 10_state.md section 2.) -/
def Obligations.DataMasksSelectTheDataPositions : Prop :=
  [dataBitMask 0, dataBitMask 1, dataBitMask 2] = [0x2E00#16, 0x00F0#16, 0x000E#16] ∧
    dataPos = [3, 5, 6, 7, 9, 10, 11, 12, 13, 14, 15] ∧ allDataMask = 0x2EFE#16 ∧
    allParityMask = ~~~allDataMask ∧
    (∀ p : Fin 17, 1 ≤ p.val →
      bitAt allDataMask p.val = dataPos.contains p.val ∧
      bitAt allParityMask p.val = [1, 2, 4, 8, 16].contains p.val)

/-- INSERT puts m[10-k] at DATA_POS[k] and 0 at every parity position, and completes on every word.
For every word in every state INSERT answers the state that differs only in its record. Its output
has message bit m[10-k] at position DATA_POS[k] for k in 0..10, 0 at positions 1, 2, 4, 8 and 16,
and does not read bits 15:11. It equals the concatenation form, which R58 marks as derived from R47
and which follows here from the clauses on positions. No status or flag is written, no exception is
raised. The stage record is the model's own (log 4). (stated: R58.) -/
def Obligations.InsertPlacesTheMessageBits : Prop :=
  ∀ (msg : Word) (s : State), ∃ cwD : Word,
      exec (.insert msg) s =
        .next { s with stages := { s.stages with insert := { msg := msg, cwD := cwD } } } ∧
      (∀ k : Nat, k ≤ 10 → ∀ p : Nat, [3, 5, 6, 7, 9, 10, 11, 12, 13, 14, 15][k]? = some p →
        bitAt cwD p = msg.getLsbD (10 - k)) ∧
      (∀ p ∈ [1, 2, 4, 8, 16], bitAt cwD p = false) ∧
      cwD = insertConcat msg ∧ cwD = insertWord (msg &&& 0x07FF#16)

/-- PARGEN sets the four positional parities and then the overall parity of a word that is 0 there.
For every word that is 0 at positions 1, 2, 4, 8 and 16, in every state, PARGEN answers the state
that differs only in its record. The data positions are unchanged, position 2^i holds the parity of
the bits PM_i selects, and position 16 holds the XOR of positions 1..15 of the output. No flag is
written and no exception raised. Words with a 1 at a parity position are the next statement's. The
stage record is the model's own (log 4). (stated: R59.) -/
def Obligations.PargenSetsTheParityBits : Prop :=
  ∀ (cwD : Word) (s : State), cwD &&& 0xD101#16 = 0#16 → ∃ cw : Word,
      exec (.pargen cwD) s =
        .next { s with stages := { s.stages with pargen := { cwD := cwD, cw := cw } } } ∧
      cw &&& 0x2EFE#16 = cwD ∧
      (∀ i : Fin 4, bitAt cw (2 ^ i.val) = xorReduce (cwD &&& parityCheckMask i)) ∧
      bitAt cw 16 = xorReduce (cw &&& 0xFFFE#16)

/-- On any word PARGEN completes as its pseudocode reads: parities are set, never cleared. On every
word, those with a 1 at a parity position included, PARGEN answers a next state that differs only in
its record. The data positions are unchanged, position 2^i is 1 when it was or check i is odd, and
position 16 is 1 when it was or the parity of the word so far is odd. Off its pattern this is the
spec's extension, not the hardware's behaviour, and the model evaluates it (log 6). The stage record
is the model's own (log 4). (derived: 40_encoder.md section 3, 93_implementation_defined.md part 1,
I7.) -/
def Obligations.PargenOnAnyWordFollowsThePseudocode : Prop :=
  ∀ (cwD : Word) (s : State), ∃ cw : Word,
      exec (.pargen cwD) s =
        .next { s with stages := { s.stages with pargen := { cwD := cwD, cw := cw } } } ∧
      cw &&& 0x2EFE#16 = cwD &&& 0x2EFE#16 ∧
      (∀ i : Fin 4, bitAt cw (2 ^ i.val) =
        (bitAt cwD (2 ^ i.val) || xorReduce (cwD &&& parityCheckMask i))) ∧
      bitAt cw 16 = (bitAt cwD 16 || xorReduce ((cw &&& 0xFFFE#16) ||| (cwD &&& 0x0001#16)))

/-- PARGEN's positional checks give the same word in every order. For every word that is 0 at the
parity positions and every order of the four checks, setting the positional parities in that order
gives the word the source's order gives. The law R60, which the spec derives. (derived:
40_encoder.md section 3.) -/
def Obligations.ParityChecksAreIndependentOfOrder : Prop :=
  ∀ (cwD : Word) (order : List (Fin 4)), cwD &&& 0xD101#16 = 0#16 → order.Perm [0, 1, 2, 3] →
      order.foldl (fun cw i => if xorReduce (cw &&& parityCheckMask i) then cw ||| oneHot (2 ^ i.val) else cw)
        cwD = setPositionalParities cwD

/-- ENCODE is INSERT then PARGEN, and ignores bits 15:11. For every word in every state, ENCODE
answers the state in which enc_msg_in is the word, cw_d is what INSERT on its own gives for it, and
enc_cw_out what PARGEN on its own gives for that cw_d. All else is unchanged: no status output and
no exception. It gives the same codeword with bits 15:11 cleared. The rule's corner cases and
example hold: ENCODE of 0x0000, 0x07FF, 0xF800, 0x8123, 0x0555, and the weight of a message with a
single 1 bit. The stage record is the model's own (log 4). (stated: R62.) -/
def Obligations.EncodeIsInsertThenPargen : Prop :=
  (∀ (x : Word) (s : State), ∃ a b : State,
      exec (.insert x) s = .next a ∧ exec (.pargen a.stages.insert.cwD) a = .next b ∧
      exec (.encode x) s = .next { s with
        enc := { msgIn := x, cwD := b.stages.insert.cwD, cwOut := b.stages.pargen.cw } } ∧
      encodeWord x = encodeWord (x &&& 0x07FF#16)) ∧
    [0x0000#16, 0x07FF#16, 0xF800#16, 0x0123#16, 0x8123#16, 0x0555#16, 0x0001#16].map encodeWord =
      [0x0000#16, 0xFFFF#16, 0x0000#16, 0x9547#16, 0x9547#16, 0xB4AA#16, 0xD103#16] ∧
    (∀ j : Fin 11, weight (encodeWord (1#16 <<< j.val)) = if j.val = 0 then 6 else 4)

/-- ENCODE gives the codeword of the five parity equations. For every word in every state, ENCODE
answers the state in which cw_d is INSERT's concatenation and enc_cw_out is {P1, P2, m10, P4, m9,
m8, m7, P8, m6..m0, P16} with the equations of the law R61, which the spec derives. All else is
unchanged. (derived: 40_encoder.md section 3, 40_encoder.md section 2, 40_encoder.md section 4.) -/
def Obligations.EncodeFollowsTheParityEquations : Prop :=
  ∀ (x : Word) (s : State), exec (.encode x) s =
      .next { s with enc := { msgIn := x, cwD := insertConcat x, cwOut := encodeConcat x } }

/-- Bits 15:11 of enc_msg_in have no effect on the codeword and setting them is no error. For every
word in every state, ENCODE of it and ENCODE of it with bits 15:11 cleared both answer a next state,
with the same enc_cw_out, and the same values on every other output. (stated: R52.) -/
def Obligations.EncoderIgnoresUpperBits : Prop :=
  ∀ (x : Word) (s : State), ∃ t u : State,
      exec (.encode x) s = .next t ∧ exec (.encode (x &&& 0x07FF#16)) s = .next u ∧
      t.enc.cwOut = u.enc.cwOut ∧ t.dec = u.dec

/-- ENCODE gives a codeword for every input, with no error condition, status output or fault. For
every one of the 65536 words and every state, ENCODE answers a next state whose enc_cw_out is the
word's codeword. No output but enc_cw_out changes: the decoder's message, status and diagnostic
outputs stay. (stated: R66.) -/
def Obligations.EncoderReportsNothing : Prop :=
  ∀ (x : Word) (s : State), ∃ t : State, exec (.encode x) s = .next t ∧
      t.enc.cwOut = encodeWord x ∧ t.dec = s.dec

/-- Every ENCODE output is a well-formed codeword, which SYNDROME finds clean. For every word in
every state, ENCODE answers a next state whose enc_cw_out has every positional check and the overall
parity even, and SYNDROME of it answers syn 0 and par_even 1. The law R63, which the spec derives.
The stage record is the model's own (log 4). (derived: 40_encoder.md section 4, 30_encoding.md
section 3, 41_syndrome.md section 3.) -/
def Obligations.EncodeGivesWellFormedCodewords : Prop :=
  ∀ (x : Word) (s : State), ∃ t u : State, exec (.encode x) s = .next t ∧
      (∀ i : Fin 4, xorReduce (t.enc.cwOut &&& parityCheckMask i) = false) ∧
      xorReduce t.enc.cwOut = false ∧
      exec (.syndrome t.enc.cwOut) t = .next u ∧
      u.stages.syndrome.syn = 0#4 ∧ u.stages.syndrome.parEven = true

/-- ENCODE keeps the message in its data positions, and distinct messages differ in at least 4
positions. EXTRACT of the codeword of x is x with bits 15:11 cleared. Two words with different
messages have codewords that differ in at least 4 positions, and some pair differs in exactly 4. The
law R64, which the spec derives. The stage record is the model's own (log 4). (derived:
40_encoder.md section 4.) -/
def Obligations.EncodeIsSystematicWithDistanceFour : Prop :=
  (∀ (x : Word) (s : State), ∃ t u : State, exec (.encode x) s = .next t ∧
      exec (.extract t.enc.cwOut) t = .next u ∧ u.stages.extract.msg = x &&& 0x07FF#16) ∧
    (∀ x y : Word, x &&& 0x07FF#16 ≠ y &&& 0x07FF#16 → 4 ≤ weight (encodeWord x ^^^ encodeWord y)) ∧
    (∃ x y : Word, x &&& 0x07FF#16 ≠ y &&& 0x07FF#16 ∧ weight (encodeWord x ^^^ encodeWord y) = 4)

/-- ENCODE of an XOR is the XOR of the codewords. For all words a and b in every state, enc_cw_out
after ENCODE of a XOR b is the XOR of enc_cw_out after ENCODE of a and after ENCODE of b. The law
R65, which the spec derives. (derived: 40_encoder.md section 4.) -/
def Obligations.EncodeIsLinear : Prop :=
  ∀ (a b : Word) (s : State), ∃ t u v : State,
      exec (.encode a) s = .next t ∧ exec (.encode b) s = .next u ∧
      exec (.encode (a ^^^ b)) s = .next v ∧ v.enc.cwOut = t.enc.cwOut ^^^ u.enc.cwOut

/-- SYNDROME sets bit i of syn exactly when check i is odd, and par_even when all 16 bits are even.
For every word in every state, SYNDROME answers the state that differs only in its record. Bit i of
syn is the parity of the bits PM_i selects, for i in 0..3; par_even is the NOT of the parity of all
16 bits, position 16 included. No flag is written and no exception raised. The stage record is the
model's own (log 4). (stated: R68.) -/
def Obligations.SyndromeReportsTheFailedChecks : Prop :=
  ∀ (w : Word) (s : State), ∃ (syn : BitVec 4) (parEven : Bool),
      exec (.syndrome w) s =
        .next { s with stages := { s.stages with syndrome := { w := w, syn := syn, parEven := parEven } } } ∧
      (∀ i : Fin 4, syn.getLsbD i.val = xorReduce (w &&& parityCheckMask i)) ∧
      parEven = !xorReduce w

/-- SYNDROME gives the check equations in bit indices. For every word in every state, SYNDROME
answers the state that differs only in its record, which holds the word, syn by the four check
equations and par_even by the fifth. The law R73, which the spec derives. The stage record is the
model's own (log 4). (derived: 41_syndrome.md section 3.) -/
def Obligations.SyndromeFollowsTheCheckEquations : Prop :=
  ∀ (w : Word) (s : State), exec (.syndrome w) s =
      .next { s with stages := { s.stages with
        syndrome := { w := w, syn := syndromeEquations w, parEven := parityEquation w } } }

/-- SYNDROME answers (0, 1) exactly on the well-formed words. For every word in every state,
SYNDROME answers a next state, and its outputs are syn 0 and par_even 1 if and only if every
positional check and the overall parity of the word are even. The law R69, which the spec derives.
The stage record is the model's own (log 4). (derived: 41_syndrome.md section 3, 30_encoding.md
section 3.) -/
def Obligations.ZeroSyndromeMeansWellFormed : Prop :=
  ∀ (w : Word) (s : State), ∃ t : State, exec (.syndrome w) s = .next t ∧
      ((t.stages.syndrome.syn = 0#4 ∧ t.stages.syndrome.parEven = true) ↔
        ((∀ i : Fin 4, xorReduce (w &&& parityCheckMask i) = false) ∧ xorReduce w = false))

/-- The syndrome is linear, is the XOR of the positions that hold a 1, and depends on the error
pattern alone. For all words a and b, syn of a XOR b is the XOR of their syn, and par_even is the
NOT of the XOR of their odd parities. syn is the XOR of the numbers p of the positions p in 1..15
that hold a 1. A codeword with an error pattern has the pattern's syn and par_even. The law R70,
which the spec derives. The stage record is the model's own (log 4). (derived: 41_syndrome.md
section 3.) -/
def Obligations.SyndromeIsLinear : Prop :=
  (∀ a b : Word, syndromeOf (a ^^^ b) = syndromeOf a ^^^ syndromeOf b ∧
      parityEven (a ^^^ b) = !((!parityEven a) ^^ (!parityEven b))) ∧
    (∀ w : Word, syndromeOf w = syndromeAsPositionSum w) ∧
    (∀ (x e : Word) (s : State), ∃ t u : State,
      exec (.syndrome (encodeWord x ^^^ e)) s = .next t ∧ exec (.syndrome e) s = .next u ∧
      t.stages.syndrome.syn = u.stages.syndrome.syn ∧
      t.stages.syndrome.parEven = u.stages.syndrome.parEven)

/-- One wrong bit at position p of a well-formed word gives syndrome p (0 for position 16) and odd
parity. For every well-formed word and position p in 1..16, SYNDROME of the word with position p
inverted answers par_even 0 and syn p when p is at most 15, syn 0 when p is 16. The law R71, which
the spec derives. The stage record is the model's own (log 4). (derived: 41_syndrome.md section 3.)
-/
def Obligations.SingleErrorSyndromeIsItsPosition : Prop :=
  ∀ (w : Word) (p : Nat) (s : State), wellFormedCodeword w = true → 1 ≤ p → p ≤ 16 →
      ∃ t : State, exec (.syndrome (flipAt w p)) s = .next t ∧ t.stages.syndrome.parEven = false ∧
        t.stages.syndrome.syn.toNat = if p ≤ 15 then p else 0

/-- Two wrong bits of a well-formed word give even parity and a non-zero syndrome. For every
well-formed word and distinct positions p and q in 1..16, SYNDROME of the word with both inverted
answers par_even 1 and syn not 0; syn is p XOR q, position 16 counting as 0. The law R72, which the
spec derives. The stage record is the model's own (log 4). (derived: 41_syndrome.md section 3.) -/
def Obligations.DoubleErrorSyndromeIsNonzero : Prop :=
  ∀ (w : Word) (p q : Nat) (s : State), wellFormedCodeword w = true →
      1 ≤ p → p ≤ 16 → 1 ≤ q → q ≤ 16 → p ≠ q →
      ∃ t : State, exec (.syndrome (flipAt (flipAt w p) q)) s = .next t ∧
        t.stages.syndrome.parEven = true ∧ t.stages.syndrome.syn ≠ 0#4 ∧
        t.stages.syndrome.syn = BitVec.ofNat 4 p ^^^ BitVec.ofNat 4 q

/-- CORRECT's rows U, OK and C: UNREADABLE, OK, and CORRECTED with position syn inverted. For every
word in every state, with syn and par_even by the check equations, CORRECT answers the state that
differs only in its record. syn not 0 and par_even 1: UNREADABLE, err_pos 0, word unchanged (rule
R76), and then DECODE's message is some 11-bit value, which the model leaves free (log 5). syn 0 and
par_even 1: OK, err_pos 0, word unchanged, exactly on the well-formed words (rule R78). syn not 0
and par_even 0: CORRECTED, err_pos syn, position syn inverted (rule R79). The fourth row is the next
statement's. The stage record is the model's own (log 4). Status codes are the spec's decision D3
(log 14). (derived: 42_corrector.md section 2, 41_syndrome.md section 3, 30_encoding.md section 3,
30_encoding.md section 5, 43_decoder.md section 3.) -/
def Obligations.CorrectFollowsTheSourceRows : Prop :=
  ∀ (w : Word) (s : State),
      let syn := syndromeEquations w
      let parEven := parityEquation w
      let answers (cwFix : Word) (errPos : BitVec 5) (status : Status) : Prop :=
        exec (.correct w) s = .next { s with stages := { s.stages with
          correct := { w := w, syn := syn, parEven := parEven, cwFix := cwFix, errPos := errPos,
                       status := statusCode status } } }
      (syn ≠ 0#4 → parEven = true → answers w 0#5 .unreadable ∧
        ∃ (v : BitVec 11) (t : State), exec (.decode w) s = .next t ∧ t.dec.msgOut = v.setWidth 16) ∧
      (syn = 0#4 → parEven = true → answers w 0#5 .ok) ∧
      (syn ≠ 0#4 → parEven = false → answers (flipAt w syn.toNat) (syn.setWidth 5) .corrected) ∧
      ((syn = 0#4 ∧ parEven = true) ↔ wellFormedCodeword w = true)

/-- CORRECT's row P16: zero syndrome with odd parity is CORRECTED at position 16, and the message is
the same. For every word in every state with syn 0 and par_even 0 by the check equations, CORRECT
answers the state that differs only in its record: CORRECTED, err_pos 16, position 16 inverted,
which changes no data bit. That the status is CORRECTED and not OK is the spec's decision D4 (rule
R77). The stage record is the model's own (log 4). Status codes are the spec's decision D3 (log 14).
(derived: 42_corrector.md section 2, 92_eei_decisions.md D4, 90_conflicts.md C3, 41_syndrome.md
section 3, 43_decoder.md section 2.) -/
def Obligations.CorrectInvertsTheOverallParityBit : Prop :=
  ∀ (w : Word) (s : State), syndromeEquations w = 0#4 → parityEquation w = false →
      exec (.correct w) s = .next { s with stages := { s.stages with
        correct := { w := w, syn := 0#4, parEven := false, cwFix := w ^^^ 0x0001#16, errPos := 16#5,
                     status := statusCode .corrected } } } ∧
      extractWord (w ^^^ 0x0001#16) = extractWord w

/-- Every syn and par_even fall in exactly one row of the table, consistent with the word or not.
For every word and every value of the operands syn and par_even, the corrector's function gives the
row that they select: the two UNREADABLE and OK rows leave the word, the two CORRECTED rows invert
position 16 or position syn. CORRECTED for syn 0 with odd parity is the spec's decision D4, the
rows' exclusiveness the law R80, which the spec derives. Status codes are the spec's decision D3
(log 14). (derived: 42_corrector.md section 2, 90_conflicts.md C3.) -/
def Obligations.DecisionTableIsExhaustiveAndExclusive : Prop :=
  ∀ (w : Word) (syn : BitVec 4) (parEven : Bool),
      correctWord w syn parEven =
        match decide (syn = 0#4), parEven with
        | true, true => { cwFix := w, errPos := 0#5, status := .ok }
        | true, false => { cwFix := w ^^^ 0x0001#16, errPos := 16#5, status := .corrected }
        | false, false =>
          { cwFix := w ^^^ (1#16 <<< (16 - syn.toNat)), errPos := syn.setWidth 5, status := .corrected }
        | false, true => { cwFix := w, errPos := 0#5, status := .unreadable }

/-- A correction at position 1, 2, 4, 8 or 16 is reported CORRECTED and leaves the message. For
every word in every state, CORRECT answers a next state, and if its err_pos is a parity position the
status is CORRECTED and EXTRACT of cw_fix is EXTRACT of the word. The law R81, which the spec
derives. CORRECTED for syn 0 with odd parity is its decision D4. The stage record is the model's own
(log 4). Status codes are the spec's decision D3 (log 14). (derived: 42_corrector.md section 2,
43_decoder.md section 2.) -/
def Obligations.CorrectionAtAParityPositionKeepsTheMessage : Prop :=
  ∀ (w : Word) (s : State), ∃ t : State, exec (.correct w) s = .next t ∧
      (t.stages.correct.errPos.toNat ∈ [1, 2, 4, 8, 16] →
        t.stages.correct.status = 0b01#2 ∧ extractWord t.stages.correct.cwFix = extractWord w)

/-- cw_fix is well-formed when the status is OK or CORRECTED, and the unchanged, ill-formed word on
UNREADABLE. For every word in every state, CORRECT answers a next state with cw_fix well-formed when
the status is not UNREADABLE; on UNREADABLE cw_fix is the word and is not well-formed. The law R83,
which the spec derives. CORRECTED for syn 0 with odd parity is its decision D4. The stage record is
the model's own (log 4). Status codes are the spec's decision D3 (log 14). (derived: 42_corrector.md
section 2, 30_encoding.md section 3.) -/
def Obligations.CorrectedWordsAreWellFormed : Prop :=
  ∀ (w : Word) (s : State), ∃ t : State, exec (.correct w) s = .next t ∧
      (t.stages.correct.status ≠ 0b10#2 → wellFormedCodeword t.stages.correct.cwFix = true) ∧
      (t.stages.correct.status = 0b10#2 →
        t.stages.correct.cwFix = w ∧ wellFormedCodeword t.stages.correct.cwFix = false)

/-- Three or more errors, an odd number, are always reported CORRECTED with a wrong message. For
every message word and error pattern of odd weight at least 3, in every state, DECODE of the
corrupted codeword answers a next state with status CORRECTED and a message other than the one sent.
The law R82, which the spec derives. CORRECTED for syn 0 with odd parity is its decision D4. Status
codes are the spec's decision D3 (log 14). (derived: 42_corrector.md section 2, 43_decoder.md
section 3.) -/
def Obligations.OddErrorsBeyondOneAreMiscorrected : Prop :=
  ∀ (x e : Word) (s : State), weight e % 2 = 1 → 3 ≤ weight e →
      ∃ t : State, exec (.decode (encodeWord x ^^^ e)) s = .next t ∧ t.dec.status = 0b01#2 ∧
        t.dec.msgOut ≠ x &&& 0x07FF#16

/-- An even number of errors is UNREADABLE, or OK with a wrong message when the pattern is itself a
codeword. For every message word and non-zero error pattern of even weight, in every state, DECODE
of the corrupted codeword answers a next state: UNREADABLE when the pattern is not well-formed, else
OK with a message other than the one sent, and then the weight is at least 4. The law R82, which the
spec derives. Status codes are the spec's decision D3 (log 14). (derived: 42_corrector.md section 2,
43_decoder.md section 3, 30_encoding.md section 3.) -/
def Obligations.EvenErrorsAreDetectedUnlessTheyFormACodeword : Prop :=
  ∀ (x e : Word) (s : State), weight e % 2 = 0 → e ≠ 0#16 →
      ∃ t : State, exec (.decode (encodeWord x ^^^ e)) s = .next t ∧
        (wellFormedCodeword e = false → t.dec.status = 0b10#2) ∧
        (wellFormedCodeword e = true →
          t.dec.status = 0b00#2 ∧ t.dec.msgOut ≠ x &&& 0x07FF#16 ∧ 4 ≤ weight e)

/-- EXTRACT reads DATA_POS[k] into msg[10-k], with bits 15:11 at 0, and completes on every word. For
every word in every state, EXTRACT answers the state that differs only in its record. Bit 10-k of
its output is the bit at position DATA_POS[k] for k in 0..10, and bits 15:11 are 0, so positions 1,
2, 4, 8 and 16 are not read. The output equals the concatenation form, which R85 marks as derived
from R47 and which follows here from the clauses on bits. No flag is written and no exception
raised. The stage record is the model's own (log 4). (stated: R85.) -/
def Obligations.ExtractGathersTheDataBits : Prop :=
  ∀ (w : Word) (s : State), ∃ msg : Word,
      exec (.extract w) s =
        .next { s with stages := { s.stages with extract := { w := w, msg := msg } } } ∧
      (∀ k : Nat, k ≤ 10 → ∀ p : Nat, [3, 5, 6, 7, 9, 10, 11, 12, 13, 14, 15][k]? = some p →
        msg.getLsbD (10 - k) = bitAt w p) ∧
      msg &&& 0xF800#16 = 0#16 ∧ msg = extractConcat w

/-- EXTRACT undoes INSERT, INSERT undoes EXTRACT on the data positions, and EXTRACT ignores the
parity positions. In every state, EXTRACT of INSERT's output is the word with bits 15:11 cleared;
INSERT of EXTRACT's output is the word at its data positions and 0 elsewhere; and EXTRACT gives the
same for words that differ only at parity positions. The law R86, which the spec derives. The stage
record is the model's own (log 4). (derived: 43_decoder.md section 2.) -/
def Obligations.ExtractInvertsInsert : Prop :=
  (∀ (x : Word) (s : State), ∃ t u : State, exec (.insert x) s = .next t ∧
      exec (.extract t.stages.insert.cwD) t = .next u ∧ u.stages.extract.msg = x &&& 0x07FF#16) ∧
    (∀ (w : Word) (s : State), ∃ t u : State, exec (.extract w) s = .next t ∧
      exec (.insert t.stages.extract.msg) t = .next u ∧ u.stages.insert.cwD = w &&& 0x2EFE#16) ∧
    (∀ w v : Word, v &&& 0x2EFE#16 = 0#16 → extractWord (w ^^^ v) = extractWord w)

/-- DECODE is SYNDROME, then CORRECT, then EXTRACT, with a free 11-bit message on UNREADABLE. For
every word in every state, DECODE answers the state that differs only in the decoder group: syn and
par_even as SYNDROME on its own gives them, cw_fix, err_pos and status as CORRECT on its own does,
and on dec_msg_out what EXTRACT of cw_fix gives, or on UNREADABLE some 11-bit value zero-extended
(log 5). No flag is stored, no exception raised. The rule's example 0x9147 and its corner case
0x0000 hold. The stage record is the model's own (log 4). Status codes are the spec's decision D3
(log 14). (stated: R87.) -/
def Obligations.DecodeIsSyndromeThenCorrectThenExtract : Prop :=
  (∀ (c : Word) (s : State), ∃ (a b d : State) (v : BitVec 11),
      exec (.syndrome c) s = .next a ∧ exec (.correct c) a = .next b ∧
      exec (.extract b.stages.correct.cwFix) b = .next d ∧
      exec (.decode c) s = .next { s with dec := {
        cwIn := c
        syn := a.stages.syndrome.syn
        parEven := a.stages.syndrome.parEven
        cwFix := b.stages.correct.cwFix
        errPos := b.stages.correct.errPos
        status := b.stages.correct.status
        msgOut := if b.stages.correct.status = statusCode .unreadable then v.setWidth 16 else d.stages.extract.msg } }) ∧
    (∀ s : State, exec (.decode 0x9147#16) s = .next { s with dec := {
        cwIn := 0x9147#16, syn := 6#4, parEven := false, cwFix := 0x9547#16, errPos := 6#5,
        status := statusCode .corrected, msgOut := 0x0123#16 } }) ∧
    (∀ s : State, ∃ t : State, exec (.decode 0x0000#16) s = .next t ∧ t.dec.msgOut = 0x0000#16 ∧
      t.dec.status = statusCode .ok)

/-- DECODE's outputs and nets for each of the four rows, with the message of rules R88 to R91. For
every word in every state, with syn and par_even by the check equations, DECODE answers the state
that differs only in the decoder group. OK: the data bits as received. CORRECTED: the data bits
after position 16 or position syn is inverted. UNREADABLE: cw_fix unchanged and some 11-bit message
(log 5). CORRECTED on syn 0 with odd parity is the spec's D4, the codes its D3 (log 14). (derived:
43_decoder.md section 3, 42_corrector.md section 2, 41_syndrome.md section 3, 43_decoder.md section
2, 92_eei_decisions.md D3, 92_eei_decisions.md D4.) -/
def Obligations.DecodeGivesTheTableOutcome : Prop :=
  ∀ (c : Word) (s : State),
      let syn := syndromeEquations c
      let parEven := parityEquation c
      let answers (cwFix : Word) (errPos : BitVec 5) (status : BitVec 2) (msgOut : Word) : Prop :=
        exec (.decode c) s = .next { s with dec :=
          { cwIn := c, syn := syn, parEven := parEven, cwFix := cwFix, errPos := errPos,
            status := status, msgOut := msgOut } }
      (syn = 0#4 → parEven = true → answers c 0#5 0b00#2 (extractConcat c)) ∧
      (syn = 0#4 → parEven = false →
        answers (c ^^^ 0x0001#16) 16#5 0b01#2 (extractConcat (c ^^^ 0x0001#16))) ∧
      (syn ≠ 0#4 → parEven = false →
        answers (flipAt c syn.toNat) (syn.setWidth 5) 0b01#2 (extractConcat (flipAt c syn.toNat))) ∧
      (syn ≠ 0#4 → parEven = true → ∃ v : BitVec 11, answers c 0#5 0b10#2 (v.setWidth 16))

/-- dec_msg_out[15:11] is 0 for every input and every status. For every word in every state, DECODE
answers a next state whose dec_msg_out has bits 15:11 at 0, UNREADABLE included. (stated: R91.) -/
def Obligations.DecodedMessageHasElevenBits : Prop :=
  ∀ (c : Word) (s : State), ∃ t : State, exec (.decode c) s = .next t ∧
      t.dec.msgOut.extractLsb' 11 5 = 0#5

/-- dec_syndrome and dec_par_even show SYNDROME of dec_cw_in, whatever the status. For every word in
every state, after DECODE the ports dec_syndrome and dec_par_even show what SYNDROME on its own
gives for the same word. The two outputs are the spec's decision D6 (rule R23). The stage record is
the model's own (log 4). (derived: 10_state.md section 3, 92_eei_decisions.md D6.) -/
def Obligations.DiagnosticOutputsShowTheSyndrome : Prop :=
  ∀ (c : Word) (s : State), ∃ t u : State,
      exec (.decode c) s = .next t ∧ exec (.syndrome c) s = .next u ∧ t.dec.cwIn = c ∧
      t.decSyndrome = u.stages.syndrome.syn ∧ t.decParEven = u.stages.syndrome.parEven

/-- A corrupted codeword decodes as its error pattern does, and the message is off by the
uncorrected data bits. For every message word x and error pattern e in every state, DECODE of the
corrupted codeword and of e give the same status, syndrome and par_even. When the status is not
UNREADABLE the message is x XOR EXTRACT(e XOR c), c the word CORRECT inverts, so x is recovered
exactly when e XOR c has no data bit. The law R92, which the spec derives. Status codes are the
spec's decision D3 (log 14). (derived: 43_decoder.md section 3.) -/
def Obligations.StatusDependsOnTheErrorPatternAlone : Prop :=
  ∀ (x e : Word) (s : State), ∃ t u : State,
      exec (.decode (encodeWord x ^^^ e)) s = .next t ∧ exec (.decode e) s = .next u ∧
      t.dec.status = u.dec.status ∧ t.dec.syn = u.dec.syn ∧ t.dec.parEven = u.dec.parEven ∧
      (t.dec.status ≠ 0b10#2 →
        t.dec.msgOut = (x &&& 0x07FF#16) ^^^ extractWord (e ^^^ invertedBits t.dec.errPos) ∧
        (t.dec.msgOut = x &&& 0x07FF#16 ↔ (e ^^^ invertedBits t.dec.errPos) &&& 0x2EFE#16 = 0#16))

/-- DECODE of ENCODE gives the message back with status OK. For every word in every state, ENCODE
then DECODE of enc_cw_out answers the word with bits 15:11 cleared, status OK, syndrome 0 and
par_even 1. The law R93, which the spec derives from the source's round-trip property, and the
chaining R118. Status codes are the spec's decision D3 (log 14). (derived: 43_decoder.md section 4,
70_reset_and_hazards.md section 3.) -/
def Obligations.DecodeOfEncodeRoundTrips : Prop :=
  ∀ (x : Word) (s : State), ∃ t u : State,
      exec (.encode x) s = .next t ∧ exec (.decode t.enc.cwOut) t = .next u ∧
      u.dec.msgOut = x &&& 0x07FF#16 ∧ u.dec.status = 0b00#2 ∧ u.dec.syn = 0#4 ∧ u.dec.parEven = true

/-- Any one wrong bit of a codeword is corrected, the overall parity bit included. For every word
and position p in 1..16 in every state, ENCODE then DECODE of the codeword with position p inverted
answers the message, status CORRECTED, err_pos p, cw_fix the codeword sent, syndrome p (0 for 16)
and par_even 0. The law R94, which the spec derives from the source's single-bit property; for p =
16 the status is its decision D4. Status codes are the spec's decision D3 (log 14). (derived:
43_decoder.md section 4, 41_syndrome.md section 3, 42_corrector.md section 2.) -/
def Obligations.EverySingleErrorIsCorrected : Prop :=
  ∀ (x : Word) (p : Nat) (s : State), 1 ≤ p → p ≤ 16 → ∃ t u : State,
      exec (.encode x) s = .next t ∧ exec (.decode (flipAt t.enc.cwOut p)) t = .next u ∧
      u.dec.msgOut = x &&& 0x07FF#16 ∧ u.dec.status = 0b01#2 ∧ u.dec.cwFix = t.enc.cwOut ∧
      u.dec.errPos.toNat = p ∧ u.dec.syn.toNat = (if p ≤ 15 then p else 0) ∧ u.dec.parEven = false

/-- Any two wrong bits of a codeword give UNREADABLE. For every word and distinct positions p and q
in 1..16 in every state, ENCODE then DECODE of the codeword with both inverted answers status
UNREADABLE, with nothing inverted. The law R95, the universal form the spec derives; the message is
left free (log 5). Status codes are the spec's decision D3 (log 14). (derived: 43_decoder.md section
4, 90_conflicts.md C5, 42_corrector.md section 2.) -/
def Obligations.EveryDoubleErrorIsDetected : Prop :=
  ∀ (x : Word) (p q : Nat) (s : State), 1 ≤ p → p ≤ 16 → 1 ≤ q → q ≤ 16 → p ≠ q → ∃ t u : State,
      exec (.encode x) s = .next t ∧
      exec (.decode (flipAt (flipAt t.enc.cwOut p) q)) t = .next u ∧
      u.dec.status = 0b10#2 ∧ u.dec.errPos = 0#5 ∧ u.dec.cwFix = flipAt (flipAt t.enc.cwOut p) q

/-- OK is exactly the codewords, one per message; CORRECTED exactly the single-bit neighbours;
UNREADABLE the rest. For every word in every state, DECODE answers a next state. Its status is OK if
and only if the word is the codeword of exactly one 11-bit message. It is CORRECTED if and only if
the word has odd weight, and if and only if it is the one-bit neighbour, at exactly one position, of
exactly one message's codeword. It is UNREADABLE if and only if the word has even weight and is no
codeword. The law R96 without its counts, which the spec derives. CORRECTED for syn 0 with odd
parity is its decision D4. Status codes are the spec's decision D3 (log 14). (derived: 43_decoder.md
section 4.) -/
def Obligations.StatusPartitionsTheInputWords : Prop :=
  ∀ (c : Word) (s : State), ∃ t : State, exec (.decode c) s = .next t ∧
      (t.dec.status = 0b00#2 ↔ ∃! m : BitVec 11, encodeWord (m.setWidth 16) = c) ∧
      (t.dec.status = 0b01#2 ↔ weight c % 2 = 1) ∧
      (t.dec.status = 0b01#2 ↔
        ∃! mp : BitVec 11 × Fin 16, flipAt (encodeWord (mp.1.setWidth 16)) (mp.2.val + 1) = c) ∧
      (t.dec.status = 0b10#2 ↔ weight c % 2 = 0 ∧ ¬ ∃ m : BitVec 11, encodeWord (m.setWidth 16) = c)
end

