-- ==== Sys2Proof/Laws/Ops.lean ====
section
/-! SUPPORT. What the shared operations on words do, said once: parities, positions, checks, the
folds over the data positions, the decision table. -/

namespace Sys2Proof.Machine

/-- `xor_reduce` of a word, bit by bit. -/
theorem xorReduce_word (w : Word) :
    xorReduce w = (w.getLsbD 0 ^^ w.getLsbD 1 ^^ w.getLsbD 2 ^^ w.getLsbD 3 ^^ w.getLsbD 4 ^^
      w.getLsbD 5 ^^ w.getLsbD 6 ^^ w.getLsbD 7 ^^ w.getLsbD 8 ^^ w.getLsbD 9 ^^ w.getLsbD 10 ^^
      w.getLsbD 11 ^^ w.getLsbD 12 ^^ w.getLsbD 13 ^^ w.getLsbD 14 ^^ w.getLsbD 15) := by
  simp [xorReduce, List.range_succ]

/-- The fold under `xor_reduce` is linear from any pair of starting values. -/
theorem xorFold_xor {n : Nat} (a b : BitVec n) (bits : List Nat) (x y : Bool) :
    bits.foldl (fun acc k => acc ^^ (a ^^^ b).getLsbD k) (x ^^ y) =
      (bits.foldl (fun acc k => acc ^^ a.getLsbD k) x ^^
        bits.foldl (fun acc k => acc ^^ b.getLsbD k) y) := by
  induction bits generalizing x y with
  | nil => rfl
  | cons k ks ih =>
    have swap : ((x ^^ y) ^^ (a ^^^ b).getLsbD k) = ((x ^^ a.getLsbD k) ^^ (y ^^ b.getLsbD k)) := by
      rw [BitVec.getLsbD_xor]
      cases x <;> cases y <;> cases a.getLsbD k <;> cases b.getLsbD k <;> rfl
    simp only [List.foldl_cons]
    rw [swap]
    exact ih _ _

/-- `xor_reduce` is linear (00_scope.md R9). -/
theorem xorReduce_xor {n : Nat} (a b : BitVec n) :
    xorReduce (a ^^^ b) = (xorReduce a ^^ xorReduce b) := xorFold_xor a b _ false false

/-- A positional check is linear. -/
theorem checkOdd_xor (a b : Word) (i : Fin 4) :
    checkOdd (a ^^^ b) i = (checkOdd a i ^^ checkOdd b i) := by
  have dist : (a ^^^ b) &&& parityCheckMask i =
      (a &&& parityCheckMask i) ^^^ (b &&& parityCheckMask i) := by
    ext k hk
    simp only [BitVec.getElem_and, BitVec.getElem_xor]
    cases a[k] <;> cases b[k] <;> cases (parityCheckMask i)[k] <;> rfl
  rw [checkOdd, dist, xorReduce_xor]
  rfl

/-- Flipping twice at one position gives the word back. -/
@[simp] theorem flipAt_flipAt (w : Word) (p : Nat) : flipAt (flipAt w p) p = w := by
  simp [flipAt]

/-- The message container on output has bits 15:11 at 0 (43_decoder.md R91). -/
theorem zext16_upper (m : BitVec 11) (k : Nat) (hk : 11 ≤ k) : (zext16 m).getLsbD k = false := by
  simp [zext16, BitVec.getLsbD_setWidth]
  intro _
  exact BitVec.getLsbD_of_ge m k hk

/-- What CORRECT can answer: one of the four rows of the table (42_corrector.md R80). -/
theorem correctWord_rows (w : Word) (syn : BitVec 4) (parEven : Bool) :
    (syn ≠ 0#4 ∧ parEven = true ∧ correctWord w syn parEven = ⟨w, 0#5, .unreadable⟩) ∨
    (syn = 0#4 ∧ parEven = false ∧ correctWord w syn parEven = ⟨flipAt w 16, 16#5, .corrected⟩) ∨
    (syn = 0#4 ∧ parEven = true ∧ correctWord w syn parEven = ⟨w, 0#5, .ok⟩) ∨
    (syn ≠ 0#4 ∧ parEven = false ∧
      correctWord w syn parEven = ⟨flipAt w syn.toNat, syn.setWidth 5, .corrected⟩) := by
  by_cases hs : syn = 0#4 <;> cases parEven <;> simp [correctWord, hs]

/-- No status has the reserved code (30_encoding.md R51). -/
theorem statusCode_legal (st : Status) : isReservedStatus (statusCode st) = false := by
  cases st <;> rfl

/-- Distinct statuses have distinct codes (30_encoding.md R49). -/
theorem statusCode_injective {a b : Status} (h : statusCode a = statusCode b) : a = b := by
  cases a <;> cases b <;> simp_all [statusCode]

end Sys2Proof.Machine
end

