-- ==== Sys2Proof/Laws/Bits.lean ====
section
/-! SUPPORT. The stages bit by bit: where each message bit, parity bit and syndrome bit comes from.
One lemma per stage, so that no later proof unfolds a fold over the data positions or the checks. -/

namespace Sys2Proof.Machine

/-- Setting bits under a condition, bit by bit. -/
theorem getLsbD_setWhen {n : Nat} (b : Bool) (x h : BitVec n) (k : Nat) :
    (setWhen b x h).getLsbD k = (x.getLsbD k || (b && h.getLsbD k)) := by
  cases b <;> simp [setWhen]

/-- The one-hot word of a position has its 1 at bit `16 - p` (00_scope.md R7). -/
theorem oneHot_getLsbD {p : Nat} (h : 1 ≤ p) (k : Nat) :
    (oneHot p).getLsbD k = decide (k = 16 - p) := by
  have below : 16 - p < 16 := by omega
  by_cases hk : k = 16 - p
  · subst hk
    simp [oneHot, below]
  · by_cases low : k < 16 - p
    · simp [oneHot, low, hk]
    · have : k - (16 - p) ≠ 0 := by omega
      simp [oneHot, hk, BitVec.getLsbD_one, this]

/-- Message bit `m[j]` of a container. -/
theorem message_getLsbD (container : Word) (j : Nat) :
    (message container).getLsbD j = (decide (j < 11) && container.getLsbD j) := by
  simp [message, BitVec.getLsbD_setWidth]

/-- Bit `k` of INSERT's output (30_encoding.md R43, R47). -/
theorem insertWord_getLsbD (msg : Word) (k : Nat) :
    (insertWord msg).getLsbD k =
      if k = 13 then msg.getLsbD 10
      else if 9 ≤ k ∧ k ≤ 11 then msg.getLsbD (k - 2)
      else if 1 ≤ k ∧ k ≤ 7 then msg.getLsbD (k - 1)
      else false := by
  simp only [insertWord, dataPos, List.zipIdx, List.foldl, getLsbD_setWhen, message_getLsbD]
  by_cases hk : k < 16
  · interval_cases k <;> simp [oneHot]
  · simp [oneHot_getLsbD, show k ≠ 13 by omega, show ¬ k ≤ 11 by omega, show ¬ k ≤ 7 by omega,
      show k ≠ 11 by omega, show k ≠ 10 by omega, show k ≠ 9 by omega, show k ≠ 7 by omega,
      show k ≠ 6 by omega, show k ≠ 5 by omega, show k ≠ 4 by omega, show k ≠ 3 by omega,
      show k ≠ 2 by omega, show k ≠ 1 by omega]

/-- Bit `j` of the message EXTRACT reads (30_encoding.md R43, R47). -/
theorem extractMessage_getLsbD (w : Word) (j : Nat) :
    (extractMessage w).getLsbD j =
      if j = 10 then w.getLsbD 13
      else if 7 ≤ j ∧ j ≤ 9 then w.getLsbD (j + 2)
      else if j ≤ 6 then w.getLsbD (j + 1)
      else false := by
  by_cases hj : j < 11
  · simp only [extractMessage, dataPos, List.zipIdx, List.foldl, getLsbD_setWhen, bitAt]
    interval_cases j <;> simp
  · rw [BitVec.getLsbD_of_ge _ _ (by omega)]
    simp [show j ≠ 10 by omega, show ¬ j ≤ 9 by omega, show ¬ j ≤ 6 by omega]

/-- Bit `k` of EXTRACT's output: the message, then zeros (43_decoder.md R85). -/
theorem extractWord_getLsbD (w : Word) (k : Nat) :
    (extractWord w).getLsbD k = (extractMessage w).getLsbD k := by
  by_cases hk : k < 16
  · simp [extractWord, zext16, hk]
  · rw [BitVec.getLsbD_of_ge _ _ (by omega), BitVec.getLsbD_of_ge _ _ (by omega)]

/-- Syndrome bit `i` is the outcome of check `i` (30_encoding.md R48). -/
theorem syndromeOf_getLsbD (w : Word) (i : Fin 4) :
    (syndromeOf w).getLsbD i.val = checkOdd w i := by
  simp only [syndromeOf, checkIndices, List.foldl, getLsbD_setWhen]
  fin_cases i <;> simp

/-- A check does not see a word whose 1s lie outside its mask. -/
theorem checkOdd_setWhen (w h : Word) (b : Bool) (i : Fin 4)
    (disj : h &&& parityCheckMask i = 0#16) : checkOdd (setWhen b w h) i = checkOdd w i := by
  have same : setWhen b w h &&& parityCheckMask i = w &&& parityCheckMask i := by
    ext k hk
    have off := congrArg (fun v : Word => v[k]) disj
    simp only [BitVec.getElem_and, BitVec.getElem_zero] at off
    cases b
    · rfl
    · simp only [setWhen, if_true, BitVec.getElem_and, BitVec.getElem_or]
      cases w[k] <;> simp [off]
  rw [checkOdd, same, checkOdd]

/-- No check sees another check's parity position (40_encoder.md R60). -/
theorem checkOdd_setParity (w : Word) (b : Bool) (i j : Fin 4) (h : i ≠ j) :
    checkOdd (setWhen b w (oneHot (2 ^ j.val))) i = checkOdd w i :=
  checkOdd_setWhen w _ b i (by revert i j; decide)

/-- The positional steps of PARGEN at once: each parity position is set by its own check of the word
as it came (40_encoder.md R60). -/
theorem setPositionalParities_getLsbD (w : Word) (k : Nat) :
    (setPositionalParities w).getLsbD k =
      (w.getLsbD k || (checkOdd w 0 && decide (k = 15)) || (checkOdd w 1 && decide (k = 14)) ||
        (checkOdd w 2 && decide (k = 12)) || (checkOdd w 3 && decide (k = 8))) := by
  simp only [setPositionalParities, checkIndices, List.foldl]
  rw [checkOdd_setParity _ _ 3 2 (by decide), checkOdd_setParity _ _ 3 1 (by decide),
    checkOdd_setParity _ _ 3 0 (by decide), checkOdd_setParity _ _ 2 1 (by decide),
    checkOdd_setParity _ _ 2 0 (by decide), checkOdd_setParity _ _ 1 0 (by decide)]
  simp only [getLsbD_setWhen]
  simp [oneHot_getLsbD]

/-- The last step of PARGEN bit by bit: only position 16 can change (40_encoder.md R59). -/
theorem setOverallParity_getLsbD (w : Word) (k : Nat) :
    (setOverallParity w).getLsbD k = (w.getLsbD k || (xorReduce w && decide (k = 0))) := by
  simp [setOverallParity, getLsbD_setWhen, oneHot_getLsbD]

end Sys2Proof.Machine
end

