-- ==== Sys2Proof/Laws/Decode.lean ====
section
/-! SUPPORT. The small lemmas of the decoder and the encoder: splitting a word into its bytes, and
what each selector names. -/

namespace Sys2Proof

/-- Bit `k` of a word made of two bytes. -/
theorem wordOfBytes_getLsbD (hi lo : Byte) (k : Nat) :
    (hi ++ lo : Word).getLsbD k = if k < 8 then lo.getLsbD k else hi.getLsbD (k - 8) := by
  have h := BitVec.getLsbD_append (x := hi) (y := lo) (i := k)
  cases hk : decide (k < 8) <;> simpa [hk] using h

/-- The bytes of a word put together again are the word. -/
theorem wordOfBytes_split (w : Word) : (w.extractLsb' 8 8 ++ w.extractLsb' 0 8 : Word) = w := by
  apply BitVec.eq_of_getLsbD_eq
  intro k hk
  rw [wordOfBytes_getLsbD]
  split
  · simp [*]
  · have : 8 + (k - 8) = k := by omega
    have : k - 8 < 8 := by omega
    simp [*]

/-- The low byte of two bytes put together. -/
theorem wordOfBytes_low (hi lo : Byte) : (hi ++ lo : Word).extractLsb' 0 8 = lo := by
  apply BitVec.eq_of_getLsbD_eq
  intro k hk
  rw [BitVec.getLsbD_extractLsb', wordOfBytes_getLsbD]
  simp [hk]

/-- The high byte of two bytes put together. -/
theorem wordOfBytes_high (hi lo : Byte) : (hi ++ lo : Word).extractLsb' 8 8 = hi := by
  apply BitVec.eq_of_getLsbD_eq
  intro k hk
  rw [BitVec.getLsbD_extractLsb', wordOfBytes_getLsbD]
  simp [hk]

/-- A selector below 7 with a word of its row names one instruction, which has that word and that
selector (log 2). -/
theorem decodeSelected_ok {sel : Byte} {w : Word} {i : Instr} (h : decodeSelected sel w = .ok i) :
    i.word = w ∧ i.selector = sel ∧ i.WellFormed := by
  have back : ∀ n : Nat, sel.toNat = n → BitVec.ofNat 8 n = sel := by
    intro n hn
    rw [← hn, BitVec.ofNat_toNat, BitVec.setWidth_eq]
  unfold decodeSelected at h
  split at h
  · cases h; exact ⟨rfl, back 0 ‹_›, rfl⟩
  · cases h; exact ⟨rfl, back 1 ‹_›, rfl⟩
  · cases h; exact ⟨rfl, back 2 ‹_›, rfl⟩
  · split at h
    · cases h; exact ⟨rfl, back 3 ‹_›, by simpa [Instr.WellFormed, Instr.wf] using ‹_›⟩
    · cases h
  · cases h; exact ⟨rfl, back 4 ‹_›, rfl⟩
  · cases h; exact ⟨rfl, back 5 ‹_›, rfl⟩
  · cases h; exact ⟨rfl, back 6 ‹_›, rfl⟩
  · cases h

end Sys2Proof
end

