-- ==== Sys2Proof/Laws/PerInstr.lean ====
section
/-! SUPPORT. The statements about every instruction, one lemma per constructor. -/

namespace Sys2Proof.Laws.FixedLength

/-- Every instruction is one 16-bit word and its selector: three bytes, the first two the word's, low
byte first (30_encoding.md R54, log 3). -/
def Statement (i : Instr) : Prop :=
  ∃ lo hi : Byte, encode i = [lo, hi, i.selector] ∧ hi ++ lo = i.word

theorem encode (w : Word) : Statement (.encode w) := ⟨_, _, rfl, wordOfBytes_split w⟩
theorem decode (w : Word) : Statement (.decode w) := ⟨_, _, rfl, wordOfBytes_split w⟩
theorem insert (w : Word) : Statement (.insert w) := ⟨_, _, rfl, wordOfBytes_split w⟩
theorem pargen (w : Word) : Statement (.pargen w) := ⟨_, _, rfl, wordOfBytes_split w⟩
theorem syndrome (w : Word) : Statement (.syndrome w) := ⟨_, _, rfl, wordOfBytes_split w⟩
theorem correct (w : Word) : Statement (.correct w) := ⟨_, _, rfl, wordOfBytes_split w⟩
theorem extract (w : Word) : Statement (.extract w) := ⟨_, _, rfl, wordOfBytes_split w⟩

end Sys2Proof.Laws.FixedLength
end

