-- ==== Sys2Proof/Laws/Safety.lean ====
section
/-! SUPPORT. The small lemmas of the terms claims are stated in. -/

namespace Sys2Proof.Machine

/-- Appending a bit at the right shifts the concatenation left. -/
theorem concatBits_snoc {n : Nat} (bits : List Bool) (b : Bool) :
    (concatBits (bits ++ [b]) : BitVec n) =
      (concatBits bits <<< 1) ||| (BitVec.ofBool b).setWidth n := by
  simp [concatBits]

/-- Bit `k` of a concatenation is the `k`-th bit from the right. -/
theorem concatBits_getLsbD {n : Nat} (bits : List Bool) (k : Nat) :
    (concatBits bits : BitVec n).getLsbD k = (decide (k < n) && bits.reverse.getD k false) := by
  induction bits using List.reverseRecOn generalizing k with
  | nil => simp [concatBits]
  | append_singleton bs b ih =>
    rw [concatBits_snoc]
    cases k with
    | zero => by_cases h : 0 < n <;> cases b <;> simp [h]
    | succ k =>
      have later : k < n ∨ ¬ k + 1 < n := by omega
      simp only [BitVec.getLsbD_or, BitVec.getLsbD_shiftLeft, ih, List.reverse_append,
        List.reverse_singleton, List.singleton_append, List.getD_cons_succ]
      rcases later with h | h <;> cases b <;> simp [h]

/-- A settled encoder group is determined by its input. -/
theorem EncoderGroup.Settled.eq {g : EncoderGroup} (h : g.Settled) : g = settleEncoder g.msgIn := by
  cases g
  simpa [settleEncoder] using ⟨h.cwD_eq, h.cwOut_eq⟩

/-- A settled decoder group is determined by its input. -/
theorem DecoderGroup.Settled.eq {g : DecoderGroup} (h : g.Settled) : g = settleDecoder g.cwIn := by
  cases g
  simpa [settleDecoder] using
    ⟨h.syn_eq, h.parEven_eq, h.cwFix_eq, h.errPos_eq, h.status_eq, h.msgOut_eq⟩

/-- What ENCODE writes is settled. -/
theorem settleEncoder_settled (w : Word) : (settleEncoder w).Settled := ⟨rfl, rfl⟩

/-- What DECODE writes is settled. -/
theorem settleDecoder_settled (w : Word) : (settleDecoder w).Settled := ⟨rfl, rfl, rfl, rfl, rfl, rfl⟩

end Sys2Proof.Machine
end

