-- ==== Sys2Proof/Laws/State.lean ====
section
/-! SUPPORT. One lemma per field of State and named write, each true by unfolding once, so that no
later proof unfolds a record update. -/

namespace Sys2Proof.Machine.State

variable (s : State)

@[simp] theorem putEncoder_enc (g : EncoderGroup) : (s.putEncoder g).enc = g := rfl
@[simp] theorem putEncoder_dec (g : EncoderGroup) : (s.putEncoder g).dec = s.dec := rfl
@[simp] theorem putEncoder_stages (g : EncoderGroup) : (s.putEncoder g).stages = s.stages := rfl
@[simp] theorem putEncoder_pending (g : EncoderGroup) : (s.putEncoder g).pending = s.pending := rfl

@[simp] theorem putDecoder_enc (g : DecoderGroup) : (s.putDecoder g).enc = s.enc := rfl
@[simp] theorem putDecoder_dec (g : DecoderGroup) : (s.putDecoder g).dec = g := rfl
@[simp] theorem putDecoder_stages (g : DecoderGroup) : (s.putDecoder g).stages = s.stages := rfl
@[simp] theorem putDecoder_pending (g : DecoderGroup) : (s.putDecoder g).pending = s.pending := rfl

@[simp] theorem putInsert_enc (r : InsertRecord) : (s.putInsert r).enc = s.enc := rfl
@[simp] theorem putInsert_dec (r : InsertRecord) : (s.putInsert r).dec = s.dec := rfl
@[simp] theorem putInsert_stages_insert (r : InsertRecord) : (s.putInsert r).stages.insert = r := rfl
@[simp] theorem putInsert_stages_pargen (r : InsertRecord) : (s.putInsert r).stages.pargen = s.stages.pargen := rfl
@[simp] theorem putInsert_stages_syndrome (r : InsertRecord) : (s.putInsert r).stages.syndrome = s.stages.syndrome := rfl
@[simp] theorem putInsert_stages_correct (r : InsertRecord) : (s.putInsert r).stages.correct = s.stages.correct := rfl
@[simp] theorem putInsert_stages_extract (r : InsertRecord) : (s.putInsert r).stages.extract = s.stages.extract := rfl
@[simp] theorem putInsert_pending (r : InsertRecord) : (s.putInsert r).pending = s.pending := rfl

@[simp] theorem putPargen_enc (r : PargenRecord) : (s.putPargen r).enc = s.enc := rfl
@[simp] theorem putPargen_dec (r : PargenRecord) : (s.putPargen r).dec = s.dec := rfl
@[simp] theorem putPargen_stages_insert (r : PargenRecord) : (s.putPargen r).stages.insert = s.stages.insert := rfl
@[simp] theorem putPargen_stages_pargen (r : PargenRecord) : (s.putPargen r).stages.pargen = r := rfl
@[simp] theorem putPargen_stages_syndrome (r : PargenRecord) : (s.putPargen r).stages.syndrome = s.stages.syndrome := rfl
@[simp] theorem putPargen_stages_correct (r : PargenRecord) : (s.putPargen r).stages.correct = s.stages.correct := rfl
@[simp] theorem putPargen_stages_extract (r : PargenRecord) : (s.putPargen r).stages.extract = s.stages.extract := rfl
@[simp] theorem putPargen_pending (r : PargenRecord) : (s.putPargen r).pending = s.pending := rfl

@[simp] theorem putSyndrome_enc (r : SyndromeRecord) : (s.putSyndrome r).enc = s.enc := rfl
@[simp] theorem putSyndrome_dec (r : SyndromeRecord) : (s.putSyndrome r).dec = s.dec := rfl
@[simp] theorem putSyndrome_stages_insert (r : SyndromeRecord) : (s.putSyndrome r).stages.insert = s.stages.insert := rfl
@[simp] theorem putSyndrome_stages_pargen (r : SyndromeRecord) : (s.putSyndrome r).stages.pargen = s.stages.pargen := rfl
@[simp] theorem putSyndrome_stages_syndrome (r : SyndromeRecord) : (s.putSyndrome r).stages.syndrome = r := rfl
@[simp] theorem putSyndrome_stages_correct (r : SyndromeRecord) : (s.putSyndrome r).stages.correct = s.stages.correct := rfl
@[simp] theorem putSyndrome_stages_extract (r : SyndromeRecord) : (s.putSyndrome r).stages.extract = s.stages.extract := rfl
@[simp] theorem putSyndrome_pending (r : SyndromeRecord) : (s.putSyndrome r).pending = s.pending := rfl

@[simp] theorem putCorrect_enc (r : CorrectRecord) : (s.putCorrect r).enc = s.enc := rfl
@[simp] theorem putCorrect_dec (r : CorrectRecord) : (s.putCorrect r).dec = s.dec := rfl
@[simp] theorem putCorrect_stages_insert (r : CorrectRecord) : (s.putCorrect r).stages.insert = s.stages.insert := rfl
@[simp] theorem putCorrect_stages_pargen (r : CorrectRecord) : (s.putCorrect r).stages.pargen = s.stages.pargen := rfl
@[simp] theorem putCorrect_stages_syndrome (r : CorrectRecord) : (s.putCorrect r).stages.syndrome = s.stages.syndrome := rfl
@[simp] theorem putCorrect_stages_correct (r : CorrectRecord) : (s.putCorrect r).stages.correct = r := rfl
@[simp] theorem putCorrect_stages_extract (r : CorrectRecord) : (s.putCorrect r).stages.extract = s.stages.extract := rfl
@[simp] theorem putCorrect_pending (r : CorrectRecord) : (s.putCorrect r).pending = s.pending := rfl

@[simp] theorem putExtract_enc (r : ExtractRecord) : (s.putExtract r).enc = s.enc := rfl
@[simp] theorem putExtract_dec (r : ExtractRecord) : (s.putExtract r).dec = s.dec := rfl
@[simp] theorem putExtract_stages_insert (r : ExtractRecord) : (s.putExtract r).stages.insert = s.stages.insert := rfl
@[simp] theorem putExtract_stages_pargen (r : ExtractRecord) : (s.putExtract r).stages.pargen = s.stages.pargen := rfl
@[simp] theorem putExtract_stages_syndrome (r : ExtractRecord) : (s.putExtract r).stages.syndrome = s.stages.syndrome := rfl
@[simp] theorem putExtract_stages_correct (r : ExtractRecord) : (s.putExtract r).stages.correct = s.stages.correct := rfl
@[simp] theorem putExtract_stages_extract (r : ExtractRecord) : (s.putExtract r).stages.extract = r := rfl
@[simp] theorem putExtract_pending (r : ExtractRecord) : (s.putExtract r).pending = s.pending := rfl

@[simp] theorem putPending_enc (rest : List Application) : (s.putPending rest).enc = s.enc := rfl
@[simp] theorem putPending_dec (rest : List Application) : (s.putPending rest).dec = s.dec := rfl
@[simp] theorem putPending_stages (rest : List Application) : (s.putPending rest).stages = s.stages := rfl
@[simp] theorem putPending_pending (rest : List Application) : (s.putPending rest).pending = rest := rfl

/-- A second write to a group replaces the first. -/
@[simp] theorem putEncoder_putEncoder (a b : EncoderGroup) : (s.putEncoder a).putEncoder b = s.putEncoder b := rfl
@[simp] theorem putDecoder_putDecoder (a b : DecoderGroup) : (s.putDecoder a).putDecoder b = s.putDecoder b := rfl
@[simp] theorem putInsert_putInsert (a b : InsertRecord) : (s.putInsert a).putInsert b = s.putInsert b := rfl
@[simp] theorem putPargen_putPargen (a b : PargenRecord) : (s.putPargen a).putPargen b = s.putPargen b := rfl
@[simp] theorem putSyndrome_putSyndrome (a b : SyndromeRecord) : (s.putSyndrome a).putSyndrome b = s.putSyndrome b := rfl
@[simp] theorem putCorrect_putCorrect (a b : CorrectRecord) : (s.putCorrect a).putCorrect b = s.putCorrect b := rfl
@[simp] theorem putExtract_putExtract (a b : ExtractRecord) : (s.putExtract a).putExtract b = s.putExtract b := rfl
@[simp] theorem putPending_putPending (a b : List Application) : (s.putPending a).putPending b = s.putPending b := rfl

/-- Writes to the two groups commute (10_state.md R26). -/
theorem putEncoder_putDecoder (g : EncoderGroup) (h : DecoderGroup) :
    (s.putEncoder g).putDecoder h = (s.putDecoder h).putEncoder g := rfl

end Sys2Proof.Machine.State
end

