-- ==== Sys2Proof/Laws/Step.lean ====
section
/-! SUPPORT. What an operation and a step can do, each said once: the provers cite these and do not
unfold exec or step. -/

namespace Sys2Proof.Machine

/-- Everything an operation can do: it answers a next state, in which one group, or one stage record,
holds the values of its operand. -/
theorem exec_cases (i : Instr) (s : State) :
    (∃ w, i = .encode w ∧ exec i s = .next (s.putEncoder (settleEncoder w))) ∨
    (∃ w, i = .decode w ∧ exec i s = .next (s.putDecoder (settleDecoder w))) ∨
    (∃ w, i = .insert w ∧ exec i s = .next (s.putInsert ⟨w, insertWord w⟩)) ∨
    (∃ w, i = .pargen w ∧ exec i s = .next (s.putPargen ⟨w, pargenWord w⟩)) ∨
    (∃ w, i = .syndrome w ∧ exec i s = .next (s.putSyndrome ⟨w, syndromeOf w, parityEven w⟩)) ∨
    (∃ w, i = .correct w ∧ exec i s = .next (s.putCorrect (correctRecord w))) ∨
    (∃ w, i = .extract w ∧ exec i s = .next (s.putExtract ⟨w, extractWord w⟩)) := by
  cases i with
  | encode w => exact .inl ⟨w, rfl, rfl⟩
  | decode w => exact .inr (.inl ⟨w, rfl, rfl⟩)
  | insert w => exact .inr (.inr (.inl ⟨w, rfl, rfl⟩))
  | pargen w => exact .inr (.inr (.inr (.inl ⟨w, rfl, rfl⟩)))
  | syndrome w => exact .inr (.inr (.inr (.inr (.inl ⟨w, rfl, rfl⟩))))
  | correct w => exact .inr (.inr (.inr (.inr (.inr (.inl ⟨w, rfl, rfl⟩)))))
  | extract w => exact .inr (.inr (.inr (.inr (.inr (.inr ⟨w, rfl, rfl⟩)))))

/-- A step that answers a next state had a legal status, and either nothing was presented or an
application was made. -/
theorem step_cases {s t : State} (h : step s = .next t) :
    isReservedStatus s.dec.status = false ∧
      ((fetch s.pending = .idle ∧ t = s) ∨
       ∃ i rest, fetch s.pending = .application i rest ∧ exec i (s.putPending rest) = .next t) := by
  unfold step applyNext at h
  split at h
  · cases h
  · rename_i hs
    refine ⟨by simpa using hs, ?_⟩
    cases hf : fetch s.pending with
    | idle =>
      rw [hf] at h
      exact .inl ⟨rfl, by simpa [runFetched, eq_comm] using h⟩
    | undriven => rw [hf] at h; cases h
    | undecodable e => rw [hf] at h; cases h
    | application i rest => rw [hf] at h; exact .inr ⟨i, rest, rfl, h⟩

end Sys2Proof.Machine
end

