-- ==== Sys2Proof/Tests/Slice0.lean ====
section
/-! SUPPORT. The model's own tests. Expected values are those of spec/95_test_vectors.md and of the
worked examples in the rules, never the model's own answers. The `witness_` theorems show, for each
statement with hypotheses, concrete states and operands that meet all of them. -/

namespace Sys2Proof.Tests

open Sys2Proof.Machine

/-- The state after one operation on the power-up state (which itself, were the operation to stop). -/
def after (i : Instr) : State :=
  match exec i State.reset with
  | .next t => t
  | .fault _ => State.reset
  | .refused _ => State.reset

/-- The power-up state with one application presented. -/
def presented (a : Application) : State := { State.reset with pending := [a] }

/-- The power-up state with `0b11` forced onto `dec_status`, which the block never shows. -/
def reservedShown : State := { State.reset with dec := { State.reset.dec with status := 0b11#2 } }

/-! Well-formedness: one ill-formed term for its one check. -/

/-- A 1 at position 16 is off PARGEN's pattern `00d0ddd0ddddddd0`. -/
theorem test_pargen_position16_is_ill_formed : (Instr.pargen 0x0447#16).wf = false := by decide
/-- A 1 at position 1 too. -/
theorem test_pargen_position1_is_ill_formed : (Instr.pargen 0x8446#16).wf = false := by decide
/-- Every data position may be 1. -/
theorem test_pargen_all_data_is_well_formed : (Instr.pargen 0x2EFE#16).wf = true := by decide

/-! Decoding: a word written out bit by bit for every family; the selectors are log 2's. -/

theorem test_decode_encode :
    decode [0b00100011#8, 0b00000001#8, 0#8] = .ok (.encode 0b0000000100100011#16, []) := by decide
theorem test_decode_decode :
    decode [0b01000111#8, 0b10010001#8, 1#8] = .ok (.decode 0b1001000101000111#16, []) := by decide
theorem test_decode_insert :
    decode [0b00100011#8, 0b10000001#8, 2#8] = .ok (.insert 0b1000000100100011#16, []) := by decide
theorem test_decode_pargen :
    decode [0b01000110#8, 0b00000100#8, 3#8] = .ok (.pargen 0b0000010001000110#16, []) := by decide
theorem test_decode_syndrome :
    decode [0b00110100#8, 0b00010010#8, 4#8] = .ok (.syndrome 0b0001001000110100#16, []) := by decide
theorem test_decode_correct :
    decode [0b01000111#8, 0b00010101#8, 5#8] = .ok (.correct 0b0001010101000111#16, []) := by decide
theorem test_decode_extract :
    decode [0b00000001#8, 0b11010001#8, 6#8, 9#8] = .ok (.extract 0b1101000100000001#16, [9#8]) := by
  decide
theorem test_decode_refuses_selector :
    decode [0#8, 0#8, 7#8] = .error (.reservedSelector 7#8) := by decide
theorem test_decode_refuses_pargen_word :
    decode [0x01#8, 0x00#8, 3#8] = .error (.parityPositionSet 0x0001#16) := by decide
theorem test_decode_refuses_short : decode [0x23#8, 0x01#8] = .error .truncated := by decide
theorem test_table_word : decodeTableWord 16 0x0123 = some (.encode 0x0123#16) := by decide

/-! Masks, from the position lists of 30_encoding.md R44 (not from the hexadecimal column). -/

theorem test_parity_mask_0 :
    parityCheckMask 0 = ([1, 3, 5, 7, 9, 11, 13, 15].map oneHot).foldl (· ||| ·) 0#16 := by decide +kernel
theorem test_parity_mask_1 :
    parityCheckMask 1 = ([2, 3, 6, 7, 10, 11, 14, 15].map oneHot).foldl (· ||| ·) 0#16 := by decide +kernel
theorem test_parity_mask_2 :
    parityCheckMask 2 = ([4, 5, 6, 7, 12, 13, 14, 15].map oneHot).foldl (· ||| ·) 0#16 := by decide +kernel
theorem test_parity_mask_3 :
    parityCheckMask 3 = ([8, 9, 10, 11, 12, 13, 14, 15].map oneHot).foldl (· ||| ·) 0#16 := by
  decide +kernel

/-! Operations, two each at most. -/

/-- R58's example. -/
theorem test_insert_example : (after (.insert 0x0123)).stages.insert.cwD = 0x0446#16 := by decide +kernel
/-- V-INS: bits 15:11 are not read; every data position. -/
theorem test_insert_ignores_upper : (after (.insert 0xFFFF)).stages.insert.cwD = 0x2EFE#16 := by
  decide +kernel
/-- R59's example, traced there step by step. -/
theorem test_pargen_example : (after (.pargen 0x0446)).stages.pargen.cw = 0x9547#16 := by decide +kernel
/-- V-PAR: positions 1, 2, 4 and 8 set, position 16 not. -/
theorem test_pargen_even_overall : (after (.pargen 0x02E0)).stages.pargen.cw = 0xD3E0#16 := by
  decide +kernel
/-- R62's example. -/
theorem test_encode_example : (after (.encode 0x0555)).enc.cwOut = 0xB4AA#16 := by decide +kernel
/-- R62: bits 15:11 ignored; the codeword of weight 6 shows m[0] in all five parities. -/
theorem test_encode_lowest_bit : (after (.encode 0xF801)).enc.cwOut = 0xD103#16 := by decide +kernel
/-- R68's example. -/
theorem test_syndrome_example :
    ((after (.syndrome 0x1234)).stages.syndrome.syn, (after (.syndrome 0x1234)).stages.syndrome.parEven)
      = (10#4, false) := by decide +kernel
/-- V-SYN: position 16 is in no check. -/
theorem test_syndrome_position16 :
    ((after (.syndrome 0x8001)).stages.syndrome.syn, (after (.syndrome 0x8001)).stages.syndrome.parEven)
      = (1#4, true) := by decide +kernel
/-- V-COR, row P16. -/
theorem test_correct_position16 :
    (after (.correct 0x9546)).stages.correct = ⟨0x9546#16, 0#4, false, 0x9547#16, 16#5, 0b01#2⟩ := by
  decide +kernel
/-- V-COR, row U. -/
theorem test_correct_double :
    (after (.correct 0xB5C7)).stages.correct = ⟨0xB5C7#16, 10#4, true, 0xB5C7#16, 0#5, 0b10#2⟩ := by
  decide +kernel
/-- V-EXT. -/
theorem test_extract_vector : (after (.extract 0x1234)).stages.extract.msg = 0x009A#16 := by decide +kernel
/-- R85: the parity positions are never read. -/
theorem test_extract_ignores_parity : (after (.extract 0xD101)).stages.extract.msg = 0#16 := by
  decide +kernel
/-- R87's example, every port and net. -/
theorem test_decode_word_example :
    (after (.decode 0x9147)).dec = ⟨0x9147#16, 6#4, false, 0x9547#16, 6#5, 0b01#2, 0x0123#16⟩ := by
  decide +kernel
/-- V-DEC: three errors, a confident wrong message (R82). -/
theorem test_decode_word_miscorrects :
    (after (.decode 0x43BD)).dec = ⟨0x43BD#16, 0#4, false, 0x43BC#16, 16#5, 0b01#2, 0x00DE#16⟩ := by
  decide +kernel

/-! Steps. -/

/-- A bare table word on the power-up state is an ENCODE (log 2). -/
theorem test_step_runs_table_word :
    step (State.reset.withFetchWord 16 0x0123) = exec (.encode 0x0123) State.reset := rfl
theorem test_step_refuses_undriven :
    step (presented ⟨0x0123#16, 0#8, 0x8000#16⟩) = .refused .undrivenInput := rfl
theorem test_step_refuses_selector :
    step (presented ⟨0x0123#16, 7#8, 0#16⟩) = .refused (.undecodable (.reservedSelector 7#8)) := rfl
theorem test_step_faults_on_reserved_status : step reservedShown = .fault .reservedStatus := rfl

/-! Witnesses. -/

/-- A settled state with an application presented. -/
theorem witness_settled : (State.reset.withFetchWord 16 0x0123).Settled where
  enc := ⟨by decide +kernel, by decide +kernel⟩
  dec := ⟨by decide +kernel, by decide +kernel, by decide +kernel, by decide +kernel, by decide +kernel,
    by decide +kernel⟩
  stages := ⟨by decide +kernel, by decide +kernel, by decide +kernel, by decide +kernel, by decide +kernel⟩

/-- For StepKeepsSettled, SettledStatesAreInRange and SettledStatesNeverFault: the state is settled
and its step answers a next state. -/
theorem witness_StepKeepsSettled :
    (State.reset.withFetchWord 16 0x0123).Settled ∧
      ∃ t, step (State.reset.withFetchWord 16 0x0123) = .next t := ⟨witness_settled, _, rfl⟩

/-- For StepKeepsPortsInRange: in range but not settled, and stepping. -/
theorem witness_StepKeepsPortsInRange :
    ∃ s t : State, s.InRange ∧ s.enc.cwOut ≠ encodeWord s.enc.msgIn ∧ step s = .next t :=
  ⟨{ State.reset.withFetchWord 16 0x0123 with enc := ⟨0x0123#16, 0#16, 0xFFFF#16⟩ }, _,
    ⟨by decide +kernel, by decide +kernel, by decide +kernel, by decide +kernel, by decide +kernel,
      by decide +kernel, by decide +kernel, by decide +kernel⟩, by decide +kernel, rfl⟩

/-- For DecodeReadsBackEveryEncoding and EveryInstructionRunsWhenPresented: PARGEN's pattern is met by
a non-zero word, on a state that does not show `0b11`. -/
theorem witness_well_formed_pargen :
    (Instr.pargen 0x0446#16).WellFormed ∧ State.reset.dec.status ≠ 0b11#2 := by decide

/-- For DecodeAcceptsOnlyEncodings. -/
theorem witness_DecodeAcceptsOnlyEncodings :
    ∃ bytes rest i, decode bytes = .ok (i, rest) := ⟨_, _, _, test_decode_extract⟩

/-- For DecoderRefusesByName: two bytes, the lowest and highest reserved selector, a word with only
position 16 and one with only position 1. -/
theorem witness_DecoderRefusesByName :
    [0#8, 0#8].length < 3 ∧ 6 < (7#8).toNat ∧ 6 < (255#8).toNat ∧
      (0x00#8 ++ 0x01#8 : Word) &&& 0xD101#16 ≠ 0#16 ∧ (0x80#8 ++ 0x00#8 : Word) &&& 0xD101#16 ≠ 0#16 := by
  decide

/-- For StepRunsTheDecodedApplication. -/
theorem witness_StepRunsTheDecodedApplication :
    ∃ (s : State) (a : Application) (rest : List Application) (i : Instr) (left : List Byte),
      s.dec.status ≠ 0b11#2 ∧ s.pending = a :: rest ∧ a.undriven = 0#16 ∧
        decode (applicationBytes a.word a.selector) = .ok (i, left) :=
  ⟨presented ⟨0x9147#16, 1#8, 0#16⟩, _, _, .decode 0x9147#16, [], by decide, rfl, rfl, by decide⟩

/-- For StepWithNothingPresentedChangesNothing. -/
theorem witness_StepWithNothingPresentedChangesNothing :
    State.reset.dec.status ≠ 0b11#2 ∧ State.reset.pending = [] := by decide

/-- For UndrivenInputIsRefused: one undriven bit, an ignored one and a used one. -/
theorem witness_UndrivenInputIsRefused :
    ∃ (s : State) (a : Application) (rest : List Application),
      s.dec.status ≠ 0b11#2 ∧ s.pending = a :: rest ∧ a.undriven ≠ 0#16 ∧ a.undriven &&& 0x07FF#16 = 0#16 :=
  ⟨presented ⟨0x0123#16, 0#8, 0x8000#16⟩, _, _, by decide, rfl, by decide, by decide⟩

/-- For StepFaultsExactlyOnTheReservedStatus: both sides, met and not met. -/
theorem witness_StepFaultsExactlyOnTheReservedStatus :
    reservedShown.dec.status = 0b11#2 ∧ State.reset.dec.status ≠ 0b11#2 := by decide

/-- For ParityCheckMasksSelectTheirPositions and DataMasksSelectTheDataPositions: positions 1 and 16. -/
theorem witness_mask_positions : 1 ≤ (1 : Fin 17).val ∧ 1 ≤ (16 : Fin 17).val := by decide

/-- For InsertPlacesTheMessageBits and ExtractGathersTheDataBits: the first and the last k. -/
theorem witness_data_positions :
    [3, 5, 6, 7, 9, 10, 11, 12, 13, 14, 15][0]? = some 3 ∧
      [3, 5, 6, 7, 9, 10, 11, 12, 13, 14, 15][10]? = some 15 := by decide

/-- For PargenSetsTheParityBits and ParityChecksAreIndependentOfOrder. -/
theorem witness_pargen_word :
    0x2EFE#16 &&& 0xD101#16 = 0#16 ∧ ([3, 1, 0, 2] : List (Fin 4)).Perm [0, 1, 2, 3] := by decide

/-- For EncodeIsSystematicWithDistanceFour. -/
theorem witness_EncodeIsSystematicWithDistanceFour :
    0x0001#16 &&& 0x07FF#16 ≠ 0x0000#16 &&& 0x07FF#16 := by decide

/-- For SingleErrorSyndromeIsItsPosition and DoubleErrorSyndromeIsNonzero: a well-formed word, with
positions 1, 15 and 16 in 1..16 and distinct. -/
theorem witness_well_formed_word :
    wellFormedCodeword 0x9547 = true ∧ (1 ≤ 1 ∧ 1 ≤ 16) ∧ (1 ≤ 15 ∧ 15 ≤ 16) ∧ (1 ≤ 16 ∧ 16 ≤ 16) ∧
      (1 ≠ 16 ∧ 15 ≠ 16) := by decide +kernel

/-- For CorrectFollowsTheSourceRows, CorrectInvertsTheOverallParityBit and DecodeGivesTheTableOutcome:
rows OK and P16, and rows U and C each at syndromes 1 and 15. -/
theorem witness_decision_rows :
    (syndromeEquations 0x8001 = 1#4 ∧ parityEquation 0x8001 = true) ∧
      (syndromeEquations 0x0003 = 15#4 ∧ parityEquation 0x0003 = true) ∧
      (syndromeEquations 0x9547 = 0#4 ∧ parityEquation 0x9547 = true) ∧
      (syndromeEquations 0x0001 = 0#4 ∧ parityEquation 0x0001 = false) ∧
      (syndromeEquations 0x8000 = 1#4 ∧ parityEquation 0x8000 = false) ∧
      (syndromeEquations 0x0002 = 15#4 ∧ parityEquation 0x0002 = false) := by decide +kernel

/-- For CorrectionAtAParityPositionKeepsTheMessage: position 1 and position 16. -/
theorem witness_CorrectionAtAParityPositionKeepsTheMessage :
    (after (.correct 0x1547)).stages.correct.errPos.toNat = 1 ∧
      (after (.correct 0x9546)).stages.correct.errPos.toNat = 16 := by decide +kernel

/-- For CorrectedWordsAreWellFormed and StatusDependsOnTheErrorPatternAlone: a status that is
UNREADABLE and one that is not. -/
theorem witness_statuses :
    (after (.correct 0x9147)).stages.correct.status ≠ 0b10#2 ∧
      (after (.correct 0xC000)).stages.correct.status = 0b10#2 ∧
      (after (.decode 0x9147)).dec.status ≠ 0b10#2 := by decide +kernel

/-- For OddErrorsBeyondOneAreMiscorrected: weight 3, the least. -/
theorem witness_OddErrorsBeyondOneAreMiscorrected : weight 0xE000 % 2 = 1 ∧ 3 ≤ weight 0xE000 := by
  decide +kernel

/-- For EvenErrorsAreDetectedUnlessTheyFormACodeword: a pattern of weight 2, and one of weight 4 that
is a codeword. -/
theorem witness_EvenErrorsAreDetectedUnlessTheyFormACodeword :
    (weight 0x0003 % 2 = 0 ∧ 0x0003#16 ≠ 0#16 ∧ wellFormedCodeword 0x0003 = false) ∧
      (weight 0xE001 % 2 = 0 ∧ 0xE001#16 ≠ 0#16 ∧ wellFormedCodeword 0xE001 = true) := by decide +kernel

/-- For ExtractInvertsInsert: all parity positions. -/
theorem witness_ExtractInvertsInsert : 0xD101#16 &&& 0x2EFE#16 = 0#16 := by decide

/-- For OperationsAreIdempotent: an operation that is no ENCODE, and one that is no DECODE. -/
theorem witness_OperationsAreIdempotent :
    (∀ x : Word, Instr.decode 0#16 ≠ .encode x) ∧ (∀ c : Word, Instr.encode 0#16 ≠ .decode c) :=
  ⟨fun _ h => Instr.noConfusion h, fun _ h => Instr.noConfusion h⟩

/-- For EverySingleErrorIsCorrected and EveryDoubleErrorIsDetected: positions at the ends of 1..16 and
around the 15 and 16 boundary. -/
theorem witness_error_positions :
    (1 ≤ 1 ∧ 1 ≤ 16) ∧ (1 ≤ 15 ∧ 15 ≤ 16) ∧ (1 ≤ 16 ∧ 16 ≤ 16) ∧ 1 ≠ 16 ∧ 15 ≠ 16 := by decide

end Sys2Proof.Tests
end

section
/-! PROOFS. The masks of the positional checks and the ignored bits of a message container
(30_encoding.md R44, R52). -/

namespace Sys2Proof.Machine

/-- `PM_i` at a position: the index's bit `i`, for the positions 1..15 (30_encoding.md R44). -/
theorem bitAt_parityCheckMask (i : Fin 4) (p : Fin 17) (hp : 1 ≤ p.val) :
    bitAt (parityCheckMask i) p.val = (decide (p.val ≤ 15) && p.val.testBit i.val) := by
  revert i p
  decide

/-- Position 16 is in no positional check. -/
theorem bitAt_parityCheckMask_sixteen (i : Fin 4) : bitAt (parityCheckMask i) 16 = false :=
  bitAt_parityCheckMask i 16 (by decide)

/-- Of the parity positions `2^j`, check `i` has its own: `2^j` has only its bit `j` set. -/
theorem bitAt_parityCheckMask_two_pow (i j : Fin 4) :
    bitAt (parityCheckMask i) (2 ^ j.val) = decide (j = i) := by
  have inRange : 2 ^ j.val ≤ 15 := by revert j; decide
  rw [bitAt_parityCheckMask i ⟨2 ^ j.val, by omega⟩ Nat.one_le_two_pow]
  simp [inRange, Nat.testBit_two_pow, Fin.ext_iff]

/-- The parity positions in the mask of check `i`. -/
theorem filter_parityPositions (i : Fin 4) :
    [1, 2, 4, 8].filter (fun p => bitAt (parityCheckMask i) p) = [2 ^ i.val] := by
  have own : checkIndices.filter (fun j => decide (j = i)) = [i] := by revert i; decide
  calc [1, 2, 4, 8].filter (fun p => bitAt (parityCheckMask i) p)
      = (checkIndices.map (fun j => 2 ^ j.val)).filter (fun p => bitAt (parityCheckMask i) p) := rfl
    _ = (checkIndices.filter (fun j => decide (j = i))).map (fun j => 2 ^ j.val) := by
        simp only [List.filter_map, Function.comp_def, bitAt_parityCheckMask_two_pow]
    _ = [2 ^ i.val] := by rw [own, List.map_singleton]

/-- Clearing bits 15:11 of a container leaves its message (30_encoding.md R42). -/
@[simp] theorem message_and_07FF (x : Word) : message (x &&& 0x07FF#16) = message x := by
  have lowBits : (0x07FF#16).setWidth 11 = BitVec.allOnes 11 := by decide
  rw [message, BitVec.setWidth_and, lowBits, BitVec.and_allOnes, message]

/-- INSERT reads the message alone. -/
theorem insertWord_congr {a b : Word} (h : message a = message b) : insertWord a = insertWord b := by
  simp only [insertWord, h]

/-- ENCODE reads the message alone. -/
theorem encodeWord_congr {a b : Word} (h : message a = message b) : encodeWord a = encodeWord b :=
  congrArg pargenWord (insertWord_congr h)

/-- What ENCODE does: the encoder group settles on its operand. -/
theorem exec_encode (x : Word) (s : State) :
    exec (.encode x) s = .next (s.putEncoder (settleEncoder x)) := rfl

end Sys2Proof.Machine

namespace Sys2Proof

open Sys2Proof.Machine

/-- Settles O20: the listed values are the masks' definitions, and the clauses on position 16 and on
the parity positions come from the clause on positions. -/
theorem parityCheckMasksSelectTheirPositions :
    Obligations.ParityCheckMasksSelectTheirPositions :=
  ⟨bitAt_parityCheckMask, rfl,
    fun i => ⟨bitAt_parityCheckMask_sixteen i, filter_parityPositions i⟩⟩

/-- Settles O28: ENCODE reads the message alone, and clearing bits 15:11 leaves the message. -/
theorem encoderIgnoresUpperBits : Obligations.EncoderIgnoresUpperBits := by
  intro x s
  refine ⟨_, _, exec_encode x s, exec_encode _ s, ?_, rfl⟩
  exact encodeWord_congr (message_and_07FF x).symm

end Sys2Proof
end

section
/-! PROOFS. The encoder's two stages and their composition: where INSERT puts a bit, what PARGEN sets
and what it leaves, and ENCODE as INSERT then PARGEN (40_encoder.md R58, R59, R62, R66). -/

namespace Sys2Proof.Machine

/-- What INSERT on its own does: its record holds its operand and output. -/
theorem exec_insert (msg : Word) (s : State) :
    exec (.insert msg) s = .next (s.putInsert ⟨msg, insertWord msg⟩) := rfl

/-- What PARGEN on its own does: its record holds its operand and output. -/
theorem exec_pargen (cwD : Word) (s : State) :
    exec (.pargen cwD) s = .next (s.putPargen ⟨cwD, pargenWord cwD⟩) := rfl

/-! INSERT. -/

/-- `DATA_POS` in its three runs between the parity positions: 3, then 5 to 7, then 9 to 15
(30_encoding.md R45). -/
theorem dataPos_runs : ∀ pk ∈ dataPos.zipIdx,
    (pk.2 = 0 ∧ pk.1 = 3) ∨ (1 ≤ pk.2 ∧ pk.2 ≤ 3 ∧ pk.1 = pk.2 + 4) ∨
      (4 ≤ pk.2 ∧ pk.2 ≤ 10 ∧ pk.1 = pk.2 + 5) := by
  decide

/-- INSERT puts message bit `m[10 - k]` at position `DATA_POS[k]` (30_encoding.md R47). -/
theorem bitAt_insertWord_dataPos (msg : Word) {k p : Nat} (h : dataPos[k]? = some p) :
    bitAt (insertWord msg) p = msg.getLsbD (10 - k) := by
  have mem : (p, k) ∈ dataPos.zipIdx := List.mem_zipIdx_iff_getElem?.mpr h
  have runs := dataPos_runs (p, k) mem
  dsimp only at runs
  rw [bitAt, insertWord_getLsbD]
  rcases runs with ⟨rfl, rfl⟩ | ⟨lo, hi, rfl⟩ | ⟨lo, hi, rfl⟩
  · rfl
  · rw [if_neg (by omega), if_pos (by omega),
      show 16 - (k + 4) - 2 = 10 - k by omega]
  · rw [if_neg (by omega), if_neg (by omega), if_pos (by omega),
      show 16 - (k + 5) - 1 = 10 - k by omega]

/-- INSERT leaves every parity position 0. -/
theorem bitAt_insertWord_parity (msg : Word) :
    ∀ p ∈ [1, 2, 4, 8, 16], bitAt (insertWord msg) p = false := by
  simp [bitAt, insertWord_getLsbD]

/-- INSERT is its concatenation form (40_encoder.md R58): the two agree at each of the 16 bits. -/
theorem insertWord_eq_insertConcat (msg : Word) : insertWord msg = insertConcat msg := by
  apply BitVec.eq_of_getLsbD_eq
  intro k hk
  rw [insertWord_getLsbD, insertConcat, concatBits_getLsbD]
  interval_cases k <;> rfl

/-! PARGEN. -/

/-- Setting bits outside a mask leaves what the mask selects. -/
theorem setWhen_and_of_disjoint {n : Nat} {h mask : BitVec n} (b : Bool) (w : BitVec n)
    (disj : h &&& mask = 0#n) : setWhen b w h &&& mask = w &&& mask := by
  cases b
  · rfl
  · rw [setWhen, if_pos rfl, BitVec.and_or_distrib_right, disj, BitVec.or_zero]

/-- The positional steps of PARGEN change positions 1, 2, 4 and 8 only. -/
theorem setPositionalParities_and {mask : Word} (w : Word)
    (disj : ∀ i : Fin 4, oneHot (2 ^ i.val) &&& mask = 0#16) :
    setPositionalParities w &&& mask = w &&& mask := by
  simp only [setPositionalParities, checkIndices, List.foldl]
  rw [setWhen_and_of_disjoint _ _ (disj 3), setWhen_and_of_disjoint _ _ (disj 2),
    setWhen_and_of_disjoint _ _ (disj 1), setWhen_and_of_disjoint _ _ (disj 0)]

/-- The last step of PARGEN changes position 16 only. -/
theorem setOverallParity_and {mask : Word} (w : Word) (disj : oneHot 16 &&& mask = 0#16) :
    setOverallParity w &&& mask = w &&& mask :=
  setWhen_and_of_disjoint _ w disj

/-- PARGEN leaves the data positions of any word. -/
theorem pargenWord_and_dataMask (w : Word) : pargenWord w &&& 0x2EFE#16 = w &&& 0x2EFE#16 := by
  rw [pargenWord, setOverallParity_and _ (by decide), setPositionalParities_and _ (by decide)]

/-- PARGEN sets position `2^i` when check `i` of its operand is odd. -/
theorem bitAt_pargenWord_two_pow (w : Word) (i : Fin 4) :
    bitAt (pargenWord w) (2 ^ i.val) = (bitAt w (2 ^ i.val) || checkOdd w i) := by
  rw [bitAt, pargenWord, setOverallParity_getLsbD, setPositionalParities_getLsbD]
  fin_cases i <;> simp [bitAt]

/-- PARGEN sets position 16 when the word after the positional steps has odd parity. -/
theorem bitAt_pargenWord_sixteen (w : Word) :
    bitAt (pargenWord w) 16 = (bitAt w 16 || xorReduce (setPositionalParities w)) := by
  rw [bitAt, pargenWord, setOverallParity_getLsbD, setPositionalParities_getLsbD]
  simp [bitAt]

/-- Two masks that cover the word give it back in two parts. -/
theorem and_or_and_of_cover {a b : Word} (w : Word) (cover : a ||| b = BitVec.allOnes 16) :
    (w &&& a) ||| (w &&& b) = w := by
  rw [← BitVec.and_or_distrib_left, cover, BitVec.and_allOnes]

/-- The word after the positional steps, read from PARGEN's output and operand: positions 1..15 are
final by then, and position 16 is still the operand's (40_encoder.md R59). -/
theorem setPositionalParities_eq_parts (w : Word) :
    setPositionalParities w = (pargenWord w &&& 0xFFFE#16) ||| (w &&& 0x0001#16) := by
  rw [pargenWord, setOverallParity_and _ (by decide),
    ← setPositionalParities_and (mask := 0x0001#16) w (by decide),
    and_or_and_of_cover _ (by decide)]

/-- A word that is 0 at the parity positions is 0 wherever a mask selects only those. -/
theorem and_eq_zero_of_parity_clear {w : Word} (clear : w &&& 0xD101#16 = 0#16) {mask : Word}
    (sub : 0xD101#16 &&& mask = mask) : w &&& mask = 0#16 := by
  rw [← sub, ← BitVec.and_assoc, clear, BitVec.zero_and]

/-- A word that is 0 at the parity positions is its data positions. -/
theorem and_dataMask_of_parity_clear {w : Word} (clear : w &&& 0xD101#16 = 0#16) :
    w &&& 0x2EFE#16 = w := by
  have parts := and_or_and_of_cover (a := 0xD101#16) (b := 0x2EFE#16) w (by decide)
  rwa [clear, BitVec.zero_or] at parts

/-- A word that is 0 at the parity positions, position by position. -/
theorem bitAt_of_parity_clear {w : Word} (clear : w &&& 0xD101#16 = 0#16) :
    ∀ p ∈ [1, 2, 4, 8, 16], bitAt w p = false := by
  intro p hp
  have selected : ∀ q ∈ [1, 2, 4, 8, 16], (0xD101#16).getLsbD (16 - q) = true := by decide
  have bit := congrArg (·.getLsbD (16 - p)) clear
  simpa only [bitAt, BitVec.getLsbD_and, selected p hp, Bool.and_true, BitVec.getLsbD_zero] using bit

end Sys2Proof.Machine

namespace Sys2Proof

open Sys2Proof.Machine

/-- Settles O22: the clauses on positions are `insertWord` bit by bit, and INSERT reads the message
alone. -/
theorem insertPlacesTheMessageBits : Obligations.InsertPlacesTheMessageBits := by
  intro msg s
  refine ⟨insertWord msg, exec_insert msg s, ?_, bitAt_insertWord_parity msg,
    insertWord_eq_insertConcat msg, insertWord_congr (message_and_07FF msg).symm⟩
  intro k _ p hp
  exact bitAt_insertWord_dataPos msg hp

/-- Settles O23: PARGEN's bits on any word, with the operand's parity positions 0. -/
theorem pargenSetsTheParityBits : Obligations.PargenSetsTheParityBits := by
  intro cwD s clear
  refine ⟨pargenWord cwD, exec_pargen cwD s, ?_, ?_, ?_⟩
  · rw [pargenWord_and_dataMask, and_dataMask_of_parity_clear clear]
  · intro i
    have isParity : ∀ j : Fin 4, 2 ^ j.val ∈ [1, 2, 4, 8, 16] := by decide
    rw [bitAt_pargenWord_two_pow, bitAt_of_parity_clear clear _ (isParity i), Bool.false_or, checkOdd]
  · rw [bitAt_pargenWord_sixteen, bitAt_of_parity_clear clear 16 (by decide), Bool.false_or,
      setPositionalParities_eq_parts, and_eq_zero_of_parity_clear clear (by decide), BitVec.or_zero]

/-- Settles O26: ENCODE's net and output are those of INSERT and then PARGEN, and ENCODE reads the
message alone. The corner cases and the weights of the one-bit messages are evaluated. -/
theorem encodeIsInsertThenPargen : Obligations.EncodeIsInsertThenPargen := by
  refine ⟨fun x s => ?_, by decide +kernel, by decide +kernel⟩
  exact ⟨_, _, exec_insert x s, exec_pargen _ _, exec_encode x s,
    encodeWord_congr (message_and_07FF x).symm⟩

/-- Settles O29: ENCODE writes the encoder group and no other. -/
theorem encoderReportsNothing : Obligations.EncoderReportsNothing := by
  intro x s
  refine ⟨_, exec_encode x s, ?_, State.putEncoder_dec s _⟩
  rw [State.putEncoder_enc, settleEncoder]

end Sys2Proof
end

section
/-! PROOFS. SYNDROME on its own: the check a syndrome bit reports and the parity of the whole word
(41_syndrome.md R68). -/

namespace Sys2Proof.Machine

/-- What SYNDROME on its own does: its record holds its operand and its two outputs. -/
theorem exec_syndrome (w : Word) (s : State) :
    exec (.syndrome w) s = .next (s.putSyndrome ⟨w, syndromeOf w, parityEven w⟩) := rfl

end Sys2Proof.Machine

namespace Sys2Proof

open Sys2Proof.Machine

/-- Settles O33: bit `i` of `syn` is the outcome of check `i`, which is the parity of the bits `PM_i`
selects. -/
theorem syndromeReportsTheFailedChecks : Obligations.SyndromeReportsTheFailedChecks := by
  intro w s
  refine ⟨syndromeOf w, parityEven w, exec_syndrome w s, ?_, ?_⟩
  · intro i
    rw [syndromeOf_getLsbD, checkOdd]
  · rw [parityEven]

end Sys2Proof
end

section
/-! PROOFS. The decoder: where EXTRACT reads a message bit, and DECODE as SYNDROME, then CORRECT,
then EXTRACT or the free message (43_decoder.md R85, R87, R91). -/

namespace Sys2Proof.Machine

/-- What EXTRACT on its own does: its record holds its operand and output. -/
theorem exec_extract (w : Word) (s : State) :
    exec (.extract w) s = .next (s.putExtract ⟨w, extractWord w⟩) := rfl

/-- What CORRECT on its own does: its record holds its operands and outputs. -/
theorem exec_correct (w : Word) (s : State) :
    exec (.correct w) s = .next (s.putCorrect (correctRecord w)) := rfl

/-- What DECODE does: the decoder group settles on its operand. -/
theorem exec_decode (c : Word) (s : State) :
    exec (.decode c) s = .next (s.putDecoder (settleDecoder c)) := rfl

/-! The message container. -/

/-- Bits 15:11 of a message container on output, taken together, are 0 (43_decoder.md R91). -/
theorem zext16_extractLsb'_upper (m : BitVec 11) : (zext16 m).extractLsb' 11 5 = 0#5 := by
  apply BitVec.eq_of_getLsbD_eq
  intro k _
  rw [BitVec.getLsbD_extractLsb', zext16_upper m (11 + k) (by omega), Bool.and_false,
    BitVec.getLsbD_zero]

/-- A message container on output has no 1 that the mask of bits 15:11 selects. -/
theorem zext16_and_F800 (m : BitVec 11) : zext16 m &&& 0xF800#16 = 0#16 := by
  have upperOnly : ∀ k < 11, (0xF800#16).getLsbD k = false := by decide
  apply BitVec.eq_of_getLsbD_eq
  intro k _
  rw [BitVec.getLsbD_and, BitVec.getLsbD_zero]
  rcases Nat.lt_or_ge k 11 with low | high
  · rw [upperOnly k low, Bool.and_false]
  · rw [zext16_upper m k high, Bool.false_and]

/-! EXTRACT. -/

/-- EXTRACT puts the bit at position `DATA_POS[k]` in message bit `m[10 - k]` (30_encoding.md R47). -/
theorem extractWord_getLsbD_dataPos (w : Word) {k p : Nat} (h : dataPos[k]? = some p) :
    (extractWord w).getLsbD (10 - k) = bitAt w p := by
  have mem : (p, k) ∈ dataPos.zipIdx := List.mem_zipIdx_iff_getElem?.mpr h
  have runs := dataPos_runs (p, k) mem
  dsimp only at runs
  rw [bitAt, extractWord_getLsbD, extractMessage_getLsbD]
  rcases runs with ⟨rfl, rfl⟩ | ⟨lo, hi, rfl⟩ | ⟨lo, hi, rfl⟩
  · rfl
  · rw [if_neg (by omega), if_pos (by omega), show 10 - k + 2 = 16 - (k + 4) by omega]
  · rw [if_neg (by omega), if_neg (by omega), if_pos (by omega),
      show 10 - k + 1 = 16 - (k + 5) by omega]

/-- EXTRACT is its concatenation form (43_decoder.md R85): the two agree at each of the 16 bits. -/
theorem extractWord_eq_extractConcat (w : Word) : extractWord w = extractConcat w := by
  apply BitVec.eq_of_getLsbD_eq
  intro k hk
  rw [extractWord_getLsbD, extractMessage_getLsbD, extractConcat, concatBits_getLsbD]
  interval_cases k <;> rfl

/-! DECODE. -/

/-- Whatever the status, DECODE puts an 11-bit message in its container (43_decoder.md R91). -/
theorem decodedMessage_eq_zext16 (c : Word) (r : Correction) :
    ∃ m : BitVec 11, decodedMessage c r = zext16 m := by
  obtain ⟨cwFix, errPos, status⟩ := r
  cases status with
  | ok => exact ⟨extractMessage cwFix, rfl⟩
  | corrected => exact ⟨extractMessage cwFix, rfl⟩
  | unreadable => exact ⟨Config.draw11 c, rfl⟩

/-- The message of DECODE by its status code: the free value on UNREADABLE, else EXTRACT of the
corrected word (43_decoder.md R87). -/
theorem decodedMessage_eq_ite (c : Word) (r : Correction) :
    decodedMessage c r =
      if statusCode r.status = statusCode .unreadable then zext16 (Config.draw11 c)
      else extractWord r.cwFix := by
  obtain ⟨cwFix, errPos, status⟩ := r
  cases status with
  | ok => rfl
  | corrected => rfl
  | unreadable => rfl

/-- The decoder group put together from the three stages' outputs (43_decoder.md R87). -/
theorem settleDecoder_eq_stages (c : Word) :
    settleDecoder c =
      { cwIn := c
        syn := syndromeOf c
        parEven := parityEven c
        cwFix := (correctRecord c).cwFix
        errPos := (correctRecord c).errPos
        status := (correctRecord c).status
        msgOut := if (correctRecord c).status = statusCode .unreadable then zext16 (Config.draw11 c)
          else extractWord (correctRecord c).cwFix } := by
  rw [settleDecoder, decodedMessage_eq_ite]
  rfl

/-- R87's example: one wrong bit, at position 6, is corrected. -/
theorem settleDecoder_9147 :
    settleDecoder 0x9147#16 =
      { cwIn := 0x9147#16, syn := 6#4, parEven := false, cwFix := 0x9547#16, errPos := 6#5,
        status := statusCode .corrected, msgOut := 0x0123#16 } := by
  decide +kernel

/-- R87's corner case: the zero word is the codeword of message 0. -/
theorem settleDecoder_zero :
    (settleDecoder 0x0000#16).msgOut = 0x0000#16 ∧
      (settleDecoder 0x0000#16).status = statusCode .ok := by
  decide +kernel

end Sys2Proof.Machine

namespace Sys2Proof

open Sys2Proof.Machine

/-- Settles O46: EXTRACT's output bit by bit, in a message container. -/
theorem extractGathersTheDataBits : Obligations.ExtractGathersTheDataBits := by
  intro w s
  refine ⟨extractWord w, exec_extract w s, ?_, zext16_and_F800 _, extractWord_eq_extractConcat w⟩
  intro k _ p hp
  exact extractWord_getLsbD_dataPos w hp

/-- Settles O50: the decoded message is an 11-bit value in its container on every status. -/
theorem decodedMessageHasElevenBits : Obligations.DecodedMessageHasElevenBits := by
  intro c s
  obtain ⟨m, hm⟩ := decodedMessage_eq_zext16 c (correctReceived c)
  refine ⟨_, exec_decode c s, ?_⟩
  rw [State.putDecoder_dec, settleDecoder, hm, zext16_extractLsb'_upper]

/-- Settles O48: DECODE's group is put together from the outputs of the three stages, each run on its
own; the drawn message is the block's free value for the received word. -/
theorem decodeIsSyndromeThenCorrectThenExtract :
    Obligations.DecodeIsSyndromeThenCorrectThenExtract := by
  refine ⟨fun c s => ?_, fun s => ?_, fun s => ?_⟩
  · refine ⟨_, _, _, Config.draw11 c, exec_syndrome c s, exec_correct c _, exec_extract _ _, ?_⟩
    rw [exec_decode, settleDecoder_eq_stages]
    rfl
  · rw [exec_decode, settleDecoder_9147]
    rfl
  · exact ⟨_, exec_decode _ s, settleDecoder_zero⟩

end Sys2Proof
end

section
/-! PROOFS. The decoder and the encoder of applications: each reads back what the other writes, and
what is refused is named (30_encoding.md section 1, logs 2, 3 and 6). -/

namespace Sys2Proof

/-- A well-formed instruction's selector, with its word, names that instruction (log 2). -/
theorem decodeSelected_selector_word {i : Instr} (hi : i.WellFormed) :
    decodeSelected i.selector i.word = .ok i := by
  cases i with
  | encode w => rfl
  | decode w => rfl
  | insert w => rfl
  | pargen w =>
    have clear : w &&& Machine.allParityMask = 0#16 := by
      simpa [Instr.WellFormed, Instr.wf] using hi
    exact if_pos clear
  | syndrome w => rfl
  | correct w => rfl
  | extract w => rfl

/-- A selector past the table's seven rows names no operation (00_scope.md R4). -/
theorem decodeSelected_of_six_lt {sel : Byte} (w : Word) (h : 6 < sel.toNat) :
    decodeSelected sel w = .error (.reservedSelector sel) := by
  unfold decodeSelected
  split
  case h_8 => rfl
  all_goals omega

/-- PARGEN's selector with a word off its pattern is refused with that word (log 6). -/
theorem decodeSelected_off_pattern {w : Word} (h : w &&& Machine.allParityMask ≠ 0#16) :
    decodeSelected 3#8 w = .error (.parityPositionSet w) := if_neg h

/-- What `decode` accepts: at least three bytes, the third of which, as a selector, accepts the word
of the first two. -/
theorem decode_eq_ok_iff {bytes rest : List Byte} {i : Instr} :
    decode bytes = .ok (i, rest) ↔
      ∃ lo hi sel, bytes = lo :: hi :: sel :: rest ∧ decodeSelected sel (hi ++ lo) = .ok i := by
  constructor
  · intro h
    unfold decode at h
    split at h
    · next lo hi sel left =>
      cases hsel : decodeSelected sel (hi ++ lo) with
      | ok j =>
        rw [hsel] at h
        cases h
        exact ⟨lo, hi, sel, rfl, hsel⟩
      | error e =>
        rw [hsel] at h
        cases h
    · cases h
  · rintro ⟨lo, hi, sel, rfl, hsel⟩
    simp only [decode, hsel]

/-- What `decode` answers when the selector refuses the word. -/
theorem decode_of_selected_error {lo hi sel : Byte} {rest : List Byte} {e : DecodeError}
    (h : decodeSelected sel (hi ++ lo) = .error e) :
    decode (lo :: hi :: sel :: rest) = .error e := by
  simp only [decode, h]

/-- Fewer than three bytes are no application (log 3). -/
theorem decode_of_length_lt_three {bytes : List Byte} (h : bytes.length < 3) :
    decode bytes = .error .truncated := by
  match bytes, h with
  | [], _ => rfl
  | [_], _ => rfl
  | [_, _], _ => rfl

/-- The three bytes of a word and a selector decode as the selector reads the word. -/
theorem decode_applicationBytes {sel : Byte} {w : Word} {i : Instr} (rest : List Byte)
    (h : decodeSelected sel w = .ok i) : decode (applicationBytes w sel ++ rest) = .ok (i, rest) :=
  decode_eq_ok_iff.mpr ⟨_, _, _, rfl, by rw [wordOfBytes_split, h]⟩

/-- Settles O5: a well-formed instruction's selector accepts its word, and the two bytes of the word
put together are the word. -/
theorem decodeReadsBackEveryEncoding : Obligations.DecodeReadsBackEveryEncoding := by
  intro i rest hi
  exact decode_applicationBytes rest (decodeSelected_selector_word hi)

/-- Settles O6: the accepted instruction has the selector and the word that the bytes hold. -/
theorem decodeAcceptsOnlyEncodings : Obligations.DecodeAcceptsOnlyEncodings := by
  intro bytes rest i h
  obtain ⟨lo, hi, sel, rfl, hsel⟩ := decode_eq_ok_iff.mp h
  obtain ⟨hword, hselector, hwf⟩ := decodeSelected_ok hsel
  refine ⟨hwf, ?_⟩
  rw [encode, hword, hselector, applicationBytes, wordOfBytes_low, wordOfBytes_high]
  rfl

/-- Settles O7: each refusal by its own clause of the decoder. -/
theorem decoderRefusesByName : Obligations.DecoderRefusesByName := by
  refine ⟨fun bytes short => decode_of_length_lt_three short, fun lo hi sel rest big => ?_,
    fun lo hi rest off => ?_⟩
  · exact decode_of_selected_error (decodeSelected_of_six_lt _ big)
  · exact decode_of_selected_error (decodeSelected_off_pattern off)

/-- Settles O8: the decoder evaluated on the eight words. -/
theorem writtenOutWordsDecode : Obligations.WrittenOutWordsDecode := by
  unfold Obligations.WrittenOutWordsDecode
  decide

end Sys2Proof
end

section
/-! PROOFS. What an operation and a step can answer: operations complete and change one group or
record, a step faults on the reserved status alone and otherwise runs what was fetched
(60_exceptions.md R98, 30_encoding.md R51, 70_reset_and_hazards.md R120). -/

namespace Sys2Proof.Machine

/-! Operations. -/

/-- Every operation answers a next state (60_exceptions.md R98, logs 4 and 6). -/
theorem exec_completes (i : Instr) (s : State) : ∃ t : State, exec i s = .next t := by
  rcases exec_cases i s with ⟨_, -, h⟩ | ⟨_, -, h⟩ | ⟨_, -, h⟩ | ⟨_, -, h⟩ | ⟨_, -, h⟩ | ⟨_, -, h⟩ |
    ⟨_, -, h⟩ <;> exact ⟨_, h⟩

/-- No operation faults. -/
theorem exec_ne_fault (i : Instr) (s : State) (f : Fault) : exec i s ≠ .fault f := by
  obtain ⟨t, h⟩ := exec_completes i s
  rw [h]
  nofun

/-! Steps. -/

/-- The check of a step, on a status that is not the reserved code. -/
theorem isReservedStatus_eq_false {code : BitVec 2} (h : code ≠ 0b11#2) :
    isReservedStatus code = false :=
  beq_eq_false_iff_ne.mpr h

/-- A step from the reserved status faults (30_encoding.md R51, log 8). -/
theorem step_of_reserved {s : State} (h : s.dec.status = 0b11#2) :
    step s = .fault .reservedStatus := by
  rw [step, applyNext, h]
  rfl

/-- A step from any other status runs what was fetched. -/
theorem step_of_not_reserved {s : State} (h : s.dec.status ≠ 0b11#2) :
    step s = runFetched (fetch s.pending) s := by
  rw [step, applyNext, isReservedStatus_eq_false h]
  rfl

/-- Running what was fetched never faults: only the status check of a step does. -/
theorem runFetched_ne_fault (g : Fetched) (s : State) (f : Fault) : runFetched g s ≠ .fault f := by
  cases g with
  | idle => nofun
  | undriven => nofun
  | undecodable e => nofun
  | application i rest => exact exec_ne_fault i _ f

/-- A step faults exactly on the reserved status. -/
theorem step_faults_iff (s : State) :
    (∃ f : Fault, step s = .fault f) ↔ s.dec.status = 0b11#2 := by
  constructor
  · rintro ⟨f, h⟩
    by_contra legal
    rw [step_of_not_reserved legal] at h
    exact runFetched_ne_fault _ _ _ h
  · intro h
    exact ⟨_, step_of_reserved h⟩

/-- A driven application that decodes is fetched, and the pending list moves past it. -/
theorem fetch_of_decodes {a : Application} {i : Instr} {left : List Byte} (rest : List Application)
    (driven : a.undriven = 0#16) (h : decode (applicationBytes a.word a.selector) = .ok (i, left)) :
    fetch (a :: rest) = .application i rest := by
  have isDriven_a : isDriven a = true := beq_iff_eq.mpr driven
  simp only [fetch, isDriven_a, if_true, bytesOf, h]

/-- An application with an undriven bit is fetched as such, before its word is read (log 9). -/
theorem fetch_of_undriven {a : Application} (rest : List Application) (h : a.undriven ≠ 0#16) :
    fetch (a :: rest) = .undriven :=
  if_neg (by simpa [isDriven] using h)

/-- A step with a driven application that decodes makes it. -/
theorem step_of_decodes {s : State} {a : Application} {rest : List Application} {i : Instr}
    {left : List Byte} (legal : s.dec.status ≠ 0b11#2) (hp : s.pending = a :: rest)
    (driven : a.undriven = 0#16) (h : decode (applicationBytes a.word a.selector) = .ok (i, left)) :
    step s = exec i (s.putPending rest) := by
  rw [step_of_not_reserved legal, hp, fetch_of_decodes rest driven h, runFetched]

/-! Presenting an application. -/

/-- The 24 bits of a selector above a word are an application with that word and selector. -/
theorem applicationOfTableWord_24 (sel : Byte) (w : Word) :
    applicationOfTableWord 24 (sel.toNat * 2 ^ 16 + w.toNat) = ⟨w, sel, 0#16⟩ := by
  have hw : w.toNat < 65536 := w.isLt
  have hs : sel.toNat < 256 := sel.isLt
  have whole : (sel.toNat * 2 ^ 16 + w.toNat) % 2 ^ 24 = sel.toNat * 2 ^ 16 + w.toNat := by omega
  have low : BitVec.ofNat 16 (sel.toNat * 2 ^ 16 + w.toNat) = w := by
    apply BitVec.eq_of_toNat_eq
    rw [BitVec.toNat_ofNat]
    omega
  have high : BitVec.ofNat 8 ((sel.toNat * 2 ^ 16 + w.toNat) / 2 ^ 16) = sel := by
    apply BitVec.eq_of_toNat_eq
    rw [BitVec.toNat_ofNat]
    omega
  rw [applicationOfTableWord, whole, low, high]

/-- A bare 16-bit word is an application with the first selector (log 2). -/
theorem applicationOfTableWord_16 (w : Word) :
    applicationOfTableWord 16 w.toNat = ⟨w, 0#8, 0#16⟩ := by
  have hw : w.toNat < 2 ^ 16 := w.isLt
  rw [applicationOfTableWord, Nat.mod_eq_of_lt hw, Nat.div_eq_of_lt hw, BitVec.ofNat_toNat,
    BitVec.setWidth_eq]

/-- Presenting a driven application whose selector accepts its word makes the next step run it, at
the state it was presented to. -/
theorem step_withFetchWord {s : State} {i : Instr} {nbits n : Nat}
    (legal : s.dec.status ≠ 0b11#2)
    (happ : applicationOfTableWord nbits n = ⟨i.word, i.selector, 0#16⟩) (hi : i.WellFormed) :
    step (s.withFetchWord nbits n) = exec i s := by
  have reads : decode (applicationBytes i.word i.selector) = .ok (i, []) := by
    simpa using decode_applicationBytes [] (decodeSelected_selector_word hi)
  have presented : s.withFetchWord nbits n = s.putPending (⟨i.word, i.selector, 0#16⟩ :: s.pending) := by
    rw [State.withFetchWord, happ]
  rw [presented]
  exact step_of_decodes (s := s.putPending _) (a := ⟨i.word, i.selector, 0#16⟩) legal rfl rfl reads

end Sys2Proof.Machine

namespace Sys2Proof

open Sys2Proof.Machine

/-- Settles O9: the fetched application is the decoded one. -/
theorem stepRunsTheDecodedApplication : Obligations.StepRunsTheDecodedApplication := by
  intro s a rest i left legal hp driven h
  exact step_of_decodes legal hp driven h

/-- Settles O10: the presented bits are the instruction's word and selector, which decode to it. -/
theorem everyInstructionRunsWhenPresented : Obligations.EveryInstructionRunsWhenPresented := by
  refine ⟨fun s i legal hi => ?_, fun s w legal => ?_⟩
  · exact step_withFetchWord legal (applicationOfTableWord_24 i.selector i.word) hi
  · exact step_withFetchWord (i := .encode w) legal (applicationOfTableWord_16 w) rfl

/-- Settles O11: an empty list is fetched as idle. -/
theorem stepWithNothingPresentedChangesNothing :
    Obligations.StepWithNothingPresentedChangesNothing := by
  intro s legal hp
  rw [step_of_not_reserved legal, hp]
  rfl

/-- Settles O12: an undriven bit is met at the fetch. -/
theorem undrivenInputIsRefused : Obligations.UndrivenInputIsRefused := by
  intro s a rest legal hp undriven
  rw [step_of_not_reserved legal, hp, fetch_of_undriven rest undriven]
  rfl

/-- Settles O13: operations complete, so only the status check of a step faults. -/
theorem stepFaultsExactlyOnTheReservedStatus : Obligations.StepFaultsExactlyOnTheReservedStatus :=
  step_faults_iff

/-- Settles O15: an operation completes on every input; DECODE's status is one of the three and its
message an 11-bit value, and ENCODE writes no status. -/
theorem everyOperationCompletesOnEveryInput : Obligations.EveryOperationCompletesOnEveryInput := by
  refine ⟨exec_completes, fun w s => ?_, fun w s => ⟨_, exec_encode w s, rfl⟩⟩
  exact ⟨_, exec_decode w s, ⟨_, rfl⟩, decodedMessage_eq_zext16 w (correctReceived w)⟩

/-- Settles O16: each operation is one named write of the state. -/
theorem operationsChangeOnlyTheirOwnGroup : Obligations.OperationsChangeOnlyTheirOwnGroup := by
  intro i s
  cases i with
  | encode w => exact ⟨_, exec_encode w s, rfl, rfl, rfl, rfl⟩
  | decode w => exact ⟨_, exec_decode w s, rfl, rfl, rfl, rfl⟩
  | insert w => exact ⟨_, exec_insert w s, rfl, rfl, rfl, _, rfl, rfl⟩
  | pargen w => exact ⟨_, exec_pargen w s, rfl, rfl, rfl, _, rfl, rfl⟩
  | syndrome w => exact ⟨_, exec_syndrome w s, rfl, rfl, rfl, _, rfl, rfl⟩
  | correct w => exact ⟨_, exec_correct w s, rfl, rfl, rfl, _, rfl, rfl⟩
  | extract w => exact ⟨_, exec_extract w s, rfl, rfl, rfl, _, rfl, rfl⟩

/-- Settles O17: writes to the two groups commute, and each group's value is fixed by its word. -/
theorem applicationsToTheTwoGroupsCommute : Obligations.ApplicationsToTheTwoGroupsCommute := by
  intro x c s
  refine ⟨_, _, _, exec_encode x s, exec_decode c s, exec_decode c _, ?_, rfl, rfl⟩
  rw [exec_encode, ← State.putEncoder_putDecoder]

/-- Settles O18: a second write of the same values replaces the first by itself, and only ENCODE and
DECODE write a group. -/
theorem operationsAreIdempotent : Obligations.OperationsAreIdempotent := by
  intro i s
  cases i with
  | encode w => exact ⟨_, exec_encode w s, exec_encode w _, fun other => absurd rfl (other w), fun _ => rfl⟩
  | decode w => exact ⟨_, exec_decode w s, exec_decode w _, fun _ => rfl, fun other => absurd rfl (other w)⟩
  | insert w => exact ⟨_, exec_insert w s, exec_insert w _, fun _ => rfl, fun _ => rfl⟩
  | pargen w => exact ⟨_, exec_pargen w s, exec_pargen w _, fun _ => rfl, fun _ => rfl⟩
  | syndrome w => exact ⟨_, exec_syndrome w s, exec_syndrome w _, fun _ => rfl, fun _ => rfl⟩
  | correct w => exact ⟨_, exec_correct w s, exec_correct w _, fun _ => rfl, fun _ => rfl⟩
  | extract w => exact ⟨_, exec_extract w s, exec_extract w _, fun _ => rfl, fun _ => rfl⟩

/-- Settles O19: the values are `settleEncoder` and `settleDecoder` of the word. -/
theorem outputsDependOnThePresentInputAlone : Obligations.OutputsDependOnThePresentInputAlone := by
  intro w
  exact ⟨⟨settleEncoder w, exec_encode w⟩, ⟨settleDecoder w, exec_decode w⟩⟩

/-- Settles O51: the two ports are the nets that SYNDROME's outputs feed. -/
theorem diagnosticOutputsShowTheSyndrome : Obligations.DiagnosticOutputsShowTheSyndrome := by
  intro c s
  exact ⟨_, _, exec_decode c s, exec_syndrome c s, rfl, rfl, rfl⟩

end Sys2Proof
end

section
/-! PROOFS. The step invariants: settled states stay settled, states in range stay in range, and a
settled state is in range, so it never faults (10_state.md sections 3 and 4, 30_encoding.md R50,
R51). -/

namespace Sys2Proof.Machine

/-- A predicate that does not read the pending list and that every operation keeps is kept by every
step. -/
theorem step_keeps {P : State → Prop}
    (putPending_keeps : ∀ s rest, P s → P (s.putPending rest))
    (exec_keeps : ∀ i s t, P s → exec i s = .next t → P t)
    {s t : State} (hs : P s) (h : step s = .next t) : P t := by
  obtain ⟨-, ⟨-, rfl⟩ | ⟨i, rest, -, hexec⟩⟩ := step_cases h
  · exact hs
  · exact exec_keeps i _ t (putPending_keeps s rest hs) hexec

/-! Settled states. -/

/-- Every operation keeps a state settled: what it writes is its stages' function of its operand, and
it writes nothing else. -/
theorem exec_keeps_settled (i : Instr) (s t : State) (hs : s.Settled) (h : exec i s = .next t) :
    t.Settled := by
  obtain ⟨henc, hdec, hstages⟩ := hs
  rcases exec_cases i s with ⟨w, -, hi⟩ | ⟨w, -, hi⟩ | ⟨w, -, hi⟩ | ⟨w, -, hi⟩ | ⟨w, -, hi⟩ |
    ⟨w, -, hi⟩ | ⟨w, -, hi⟩ <;> obtain rfl := Host.Outcome.next.inj (h.symm.trans hi)
  · exact ⟨settleEncoder_settled w, hdec, hstages⟩
  · exact ⟨henc, settleDecoder_settled w, hstages⟩
  · exact ⟨henc, hdec, { hstages with insert_eq := rfl }⟩
  · exact ⟨henc, hdec, { hstages with pargen_eq := rfl }⟩
  · exact ⟨henc, hdec, { hstages with syndrome_eq := rfl }⟩
  · exact ⟨henc, hdec, { hstages with correct_eq := rfl }⟩
  · exact ⟨henc, hdec, { hstages with extract_eq := rfl }⟩

/-- Moving past an application keeps a state settled. -/
theorem putPending_keeps_settled (s : State) (rest : List Application) (hs : s.Settled) :
    (s.putPending rest).Settled :=
  ⟨hs.enc, hs.dec, hs.stages⟩

/-- The power-up state is settled on the zero words (70_reset_and_hazards.md R112). -/
theorem reset_settled : State.reset.Settled where
  enc := ⟨by decide +kernel, by decide +kernel⟩
  dec := ⟨by decide +kernel, by decide +kernel, by decide +kernel, by decide +kernel,
    by decide +kernel, by decide +kernel⟩
  stages := ⟨by decide +kernel, by decide +kernel, by decide +kernel, by decide +kernel,
    by decide +kernel⟩

/-! Ranges. -/

/-- INSERT's output is 0 at the parity positions (40_encoder.md R58). -/
theorem insertWord_and_parityMask (msg : Word) : insertWord msg &&& 0xD101#16 = 0#16 := by
  apply BitVec.eq_of_getLsbD_eq
  intro k hk
  rw [BitVec.getLsbD_and, insertWord_getLsbD]
  interval_cases k <;> simp

/-- CORRECT's `err_pos` is at most 16 (30_encoding.md R50). -/
theorem correctWord_errPos_le (w : Word) (syn : BitVec 4) (parEven : Bool) :
    (correctWord w syn parEven).errPos.toNat ≤ 16 := by
  rcases correctWord_rows w syn parEven with ⟨-, -, h⟩ | ⟨-, -, h⟩ | ⟨-, -, h⟩ | ⟨-, -, h⟩ <;> rw [h]
  · exact Nat.zero_le 16
  · exact Nat.le_refl 16
  · exact Nat.zero_le 16
  · have := syn.isLt
    rw [BitVec.toNat_setWidth]
    omega

/-- No status shown is the reserved code (30_encoding.md R51). -/
theorem statusCode_ne_reserved (st : Status) : statusCode st ≠ 0b11#2 :=
  beq_eq_false_iff_ne.mp (statusCode_legal st)

/-- DECODE's message is 0 at bits 15:11, whatever the status (43_decoder.md R91). -/
theorem decodedMessage_and_F800 (c : Word) (r : Correction) :
    decodedMessage c r &&& 0xF800#16 = 0#16 := by
  obtain ⟨m, hm⟩ := decodedMessage_eq_zext16 c r
  rw [hm, zext16_and_F800]

/-- Every operation keeps a state in range: what it writes is in range whatever its operand. -/
theorem exec_keeps_inRange (i : Instr) (s t : State) (hs : s.InRange) (h : exec i s = .next t) :
    t.InRange := by
  rcases exec_cases i s with ⟨w, -, hi⟩ | ⟨w, -, hi⟩ | ⟨w, -, hi⟩ | ⟨w, -, hi⟩ | ⟨w, -, hi⟩ |
    ⟨w, -, hi⟩ | ⟨w, -, hi⟩ <;> obtain rfl := Host.Outcome.next.inj (h.symm.trans hi)
  · exact { hs with cwD := insertWord_and_parityMask w }
  · exact { hs with
      errPos := correctWord_errPos_le w _ _
      status := statusCode_ne_reserved _
      msgOut := decodedMessage_and_F800 w _ }
  · exact { hs with insertCwD := insertWord_and_parityMask w }
  · exact { hs with }
  · exact { hs with }
  · exact { hs with
      correctErrPos := correctWord_errPos_le w _ _
      correctStatus := statusCode_ne_reserved _ }
  · exact { hs with extractMsg := zext16_and_F800 _ }

/-- Moving past an application keeps a state in range. -/
theorem putPending_keeps_inRange (s : State) (rest : List Application) (hs : s.InRange) :
    (s.putPending rest).InRange :=
  { hs with }

/-- A settled state is in range: each stage's output is in range whatever its operand. -/
theorem State.Settled.inRange {s : State} (hs : s.Settled) : s.InRange where
  cwD := by rw [hs.enc.cwD_eq, insertWord_and_parityMask]
  errPos := by rw [hs.dec.errPos_eq]; exact correctWord_errPos_le _ _ _
  status := by rw [hs.dec.status_eq]; exact statusCode_ne_reserved _
  msgOut := by rw [hs.dec.msgOut_eq, decodedMessage_and_F800]
  insertCwD := by rw [hs.stages.insert_eq, insertWord_and_parityMask]
  correctErrPos := by rw [hs.stages.correct_eq]; exact correctWord_errPos_le _ _ _
  correctStatus := by rw [hs.stages.correct_eq]; exact statusCode_ne_reserved _
  extractMsg := by rw [hs.stages.extract_eq, extractWord, zext16_and_F800]

/-- A settled state's step does not fault: it does not show the reserved status. -/
theorem State.Settled.safeStep {s : State} (hs : s.Settled) : SafeStep s := by
  intro f hf
  exact hs.inRange.status ((step_faults_iff s).mp ⟨f, hf⟩)

end Sys2Proof.Machine

namespace Sys2Proof

open Sys2Proof.Machine

/-- Settles O2: moving past an application and every operation keep a state settled. -/
theorem stepKeepsSettled : Obligations.StepKeepsSettled :=
  fun _ _ hs h => step_keeps putPending_keeps_settled exec_keeps_settled hs h

/-- Settles O3: what an operation writes is in range whatever its operand, so no state need be settled. -/
theorem stepKeepsPortsInRange : Obligations.StepKeepsPortsInRange :=
  fun _ _ hs h => step_keeps putPending_keeps_inRange exec_keeps_inRange hs h

/-- Settles O4: each settled value is a stage's output, and those are in range. -/
theorem settledStatesAreInRange : Obligations.SettledStatesAreInRange :=
  fun _ hs => hs.inRange

/-- Settles O1: the power-up state is settled, so in range. -/
theorem powerUpStateIsSettled : Obligations.PowerUpStateIsSettled :=
  ⟨reset_settled, reset_settled.inRange⟩

/-- Settles O14: the state after a settled state's step is settled too. -/
theorem settledStatesNeverFault : Obligations.SettledStatesNeverFault := by
  intro s hs
  exact ⟨hs.safeStep, fun t h => (stepKeepsSettled s t hs h).safeStep⟩

end Sys2Proof
end

section
/-! PROOFS. The code: the checks are linear, one wrong position shows as its number, and a well-formed
word is determined by its data positions (30_encoding.md R44 to R48, 41_syndrome.md R70 to R72). -/

namespace Sys2Proof.Machine

/-! The parts of a word. -/

/-- A word is the XOR of its parts under a mask and under the complement. -/
theorem and_xor_and_of_compl {a b : Word} (w : Word) (compl : b = ~~~a) :
    (w &&& a) ^^^ (w &&& b) = w := by
  subst compl
  ext k hk
  simp only [BitVec.getElem_xor, BitVec.getElem_and, BitVec.getElem_not]
  cases w[k] <;> cases a[k] <;> rfl

/-- The parity of the one bit a one-hot word selects. -/
theorem xorReduce_and_oneHot (w : Word) {p : Nat} (lo : 1 ≤ p) (hi : p ≤ 16) :
    xorReduce (w &&& oneHot p) = bitAt w p := by
  rw [xorReduce_word, bitAt]
  simp only [BitVec.getLsbD_and, oneHot_getLsbD lo]
  interval_cases p <;> simp

/-- A one-hot word has odd parity. -/
theorem xorReduce_oneHot {p : Nat} (lo : 1 ≤ p) (hi : p ≤ 16) : xorReduce (oneHot p) = true := by
  have bit : bitAt (oneHot p) p = true := by simp [bitAt, oneHot_getLsbD lo]
  rw [← bit, ← xorReduce_and_oneHot _ lo hi, BitVec.and_self]

/-- Check `i` is the parity bit at `2^i` against the check of the data positions. -/
theorem checkOdd_eq_parity_xor_data (w : Word) (i : Fin 4) :
    checkOdd w i = (bitAt w (2 ^ i.val) ^^ checkOdd (w &&& 0x2EFE#16) i) := by
  have own : ∀ j : Fin 4, 0xD101#16 &&& parityCheckMask j = oneHot (2 ^ j.val) := by decide
  have inRange : ∀ j : Fin 4, 1 ≤ 2 ^ j.val ∧ 2 ^ j.val ≤ 16 := by decide
  have parity : checkOdd (w &&& 0xD101#16) i = bitAt w (2 ^ i.val) := by
    rw [checkOdd, BitVec.and_assoc, own, xorReduce_and_oneHot w (inRange i).1 (inRange i).2]
  rw [← parity, ← checkOdd_xor, and_xor_and_of_compl w (by decide)]

/-- The overall parity is the bit at position 16 against the parity of positions 1..15. -/
theorem xorReduce_eq_last_xor_rest (w : Word) :
    xorReduce w = (bitAt w 16 ^^ xorReduce (w &&& 0xFFFE#16)) := by
  have parts : (w &&& oneHot 16) ^^^ (w &&& 0xFFFE#16) = w := and_xor_and_of_compl w (by decide)
  rw [← xorReduce_and_oneHot w (by decide) (by decide), ← xorReduce_xor, parts]

/-! The syndrome. -/

/-- The syndrome is linear (41_syndrome.md R70). -/
theorem syndromeOf_xor (a b : Word) : syndromeOf (a ^^^ b) = syndromeOf a ^^^ syndromeOf b := by
  apply BitVec.eq_of_getLsbD_eq
  intro k hk
  have bit : ∀ w, (syndromeOf w).getLsbD k = checkOdd w ⟨k, hk⟩ :=
    fun w => syndromeOf_getLsbD w ⟨k, hk⟩
  rw [BitVec.getLsbD_xor, bit, bit, bit, checkOdd_xor]

/-- Odd parity is linear (41_syndrome.md R70). -/
theorem parityEven_xor (a b : Word) :
    parityEven (a ^^^ b) = !((!parityEven a) ^^ (!parityEven b)) := by
  simp only [parityEven, xorReduce_xor, Bool.not_not]

/-- The syndrome is 0 exactly when every positional check is even. -/
theorem syndromeOf_eq_zero_iff (w : Word) :
    syndromeOf w = 0#4 ↔ ∀ i : Fin 4, checkOdd w i = false := by
  constructor
  · intro h i
    rw [← syndromeOf_getLsbD, h, BitVec.getLsbD_zero]
  · intro h
    apply BitVec.eq_of_getLsbD_eq
    intro k hk
    rw [BitVec.getLsbD_zero]
    exact (syndromeOf_getLsbD w ⟨k, hk⟩).trans (h ⟨k, hk⟩)

/-- The one-hot word of position `p` has syndrome `p`, position 16 counting as 0. -/
theorem syndromeOf_oneHot {p : Nat} (lo : 1 ≤ p) (hi : p ≤ 16) :
    syndromeOf (oneHot p) = BitVec.ofNat 4 p := by
  have all : ∀ q : Fin 17, 1 ≤ q.val → syndromeOf (oneHot q.val) = BitVec.ofNat 4 q.val := by
    decide +kernel
  exact all ⟨p, by omega⟩ lo

/-- Inverting position `p` moves the syndrome by `p`. -/
theorem syndromeOf_flipAt (w : Word) {p : Nat} (lo : 1 ≤ p) (hi : p ≤ 16) :
    syndromeOf (flipAt w p) = syndromeOf w ^^^ BitVec.ofNat 4 p := by
  rw [flipAt, syndromeOf_xor, syndromeOf_oneHot lo hi]

/-- Inverting one position inverts the overall parity. -/
theorem parityEven_flipAt (w : Word) {p : Nat} (lo : 1 ≤ p) (hi : p ≤ 16) :
    parityEven (flipAt w p) = !parityEven w := by
  rw [flipAt, parityEven, xorReduce_xor, xorReduce_oneHot lo hi, parityEven, Bool.xor_true]

/-! Well-formed words. -/

/-- A word is well-formed when its checks and its overall parity are even (30_encoding.md R46). -/
theorem wellFormedCodeword_iff (w : Word) :
    wellFormedCodeword w = true ↔ (∀ i : Fin 4, checkOdd w i = false) ∧ xorReduce w = false := by
  have listed : ∀ i : Fin 4, i ∈ checkIndices := by decide
  simp [wellFormedCodeword, listed]

/-- The well-formed words are those SYNDROME answers (0, 1) for (41_syndrome.md R69). -/
theorem wellFormedCodeword_iff_syndrome (w : Word) :
    wellFormedCodeword w = true ↔ syndromeOf w = 0#4 ∧ parityEven w = true := by
  rw [wellFormedCodeword_iff, syndromeOf_eq_zero_iff, parityEven, Bool.not_eq_true']

/-- XOR with a well-formed word keeps a word well-formed or not. -/
theorem wellFormedCodeword_xor {a : Word} (ha : wellFormedCodeword a = true) (b : Word) :
    wellFormedCodeword (a ^^^ b) = wellFormedCodeword b := by
  obtain ⟨hsyn, hpar⟩ := (wellFormedCodeword_iff_syndrome a).mp ha
  rw [Bool.eq_iff_iff, wellFormedCodeword_iff_syndrome, wellFormedCodeword_iff_syndrome,
    syndromeOf_xor, parityEven_xor, hsyn, hpar, BitVec.zero_xor, Bool.not_true, Bool.false_xor,
    Bool.not_not]

/-- A word with one position inverted is well-formed exactly when its syndrome is that position and
its parity is odd. -/
theorem wellFormedCodeword_flipAt_iff (w : Word) {p : Nat} (lo : 1 ≤ p) (hi : p ≤ 16) :
    wellFormedCodeword (flipAt w p) = true ↔
      syndromeOf w = BitVec.ofNat 4 p ∧ parityEven w = false := by
  rw [wellFormedCodeword_iff_syndrome, syndromeOf_flipAt w lo hi, parityEven_flipAt w lo hi,
    BitVec.xor_eq_zero_iff, Bool.not_eq_true']

/-- Two positions of a well-formed word inverted: the syndrome is the XOR of their numbers and the
parity is even (41_syndrome.md R72). -/
theorem syndrome_of_double_flip {w : Word} (hw : wellFormedCodeword w = true) {p q : Nat}
    (plo : 1 ≤ p) (phi : p ≤ 16) (qlo : 1 ≤ q) (qhi : q ≤ 16) :
    syndromeOf (flipAt (flipAt w p) q) = BitVec.ofNat 4 p ^^^ BitVec.ofNat 4 q ∧
      parityEven (flipAt (flipAt w p) q) = true := by
  obtain ⟨hsyn, hpar⟩ := (wellFormedCodeword_iff_syndrome w).mp hw
  rw [syndromeOf_flipAt _ qlo qhi, syndromeOf_flipAt _ plo phi, parityEven_flipAt _ qlo qhi,
    parityEven_flipAt _ plo phi, hsyn, hpar, BitVec.zero_xor]
  exact ⟨rfl, rfl⟩

/-- The XOR of two distinct positions in 1..16 is not 0, position 16 counting as 0. -/
theorem ofNat_xor_ofNat_ne_zero {p q : Nat} (plo : 1 ≤ p) (phi : p ≤ 16) (qlo : 1 ≤ q)
    (qhi : q ≤ 16) (hpq : p ≠ q) : BitVec.ofNat 4 p ^^^ BitVec.ofNat 4 q ≠ 0#4 := by
  intro h
  have same := congrArg BitVec.toNat (BitVec.xor_eq_zero_iff.mp h)
  rw [BitVec.toNat_ofNat, BitVec.toNat_ofNat] at same
  omega

/-- Two positions of a well-formed word inverted give no well-formed word. -/
theorem double_flip_not_wellFormed {w : Word} (hw : wellFormedCodeword w = true) {p q : Nat}
    (plo : 1 ≤ p) (phi : p ≤ 16) (qlo : 1 ≤ q) (qhi : q ≤ 16) (hpq : p ≠ q) :
    wellFormedCodeword (flipAt (flipAt w p) q) = false := by
  rw [Bool.eq_false_iff, ne_eq, wellFormedCodeword_iff_syndrome,
    (syndrome_of_double_flip hw plo phi qlo qhi).1]
  exact fun h => ofNat_xor_ofNat_ne_zero plo phi qlo qhi hpq h.1

/-- A well-formed word's parity positions are fixed by its data positions. -/
theorem wellFormedCodeword_iff_parity_data (w : Word) :
    wellFormedCodeword w = true ↔
      (∀ i : Fin 4, bitAt w (2 ^ i.val) = checkOdd (w &&& 0x2EFE#16) i) ∧
        bitAt w 16 = xorReduce (w &&& 0xFFFE#16) := by
  rw [wellFormedCodeword_iff, xorReduce_eq_last_xor_rest]
  simp only [checkOdd_eq_parity_xor_data w, bne_eq_false_iff_eq]

/-- A word with no 1 at a parity position and none at a data position is 0. -/
theorem eq_zero_of_parity_data_clear {w : Word}
    (positional : ∀ i : Fin 4, bitAt w (2 ^ i.val) = false) (overall : bitAt w 16 = false)
    (data : w &&& 0x2EFE#16 = 0#16) : w = 0#16 := by
  have kinds : ∀ k : Fin 16, (0x2EFE#16).getLsbD k.val = true ∨
      (∃ i : Fin 4, k.val = 16 - 2 ^ i.val) ∨ k.val = 16 - 16 := by decide
  apply BitVec.eq_of_getLsbD_eq
  intro k hk
  rw [BitVec.getLsbD_zero]
  rcases kinds ⟨k, hk⟩ with selected | ⟨i, at_i⟩ | last
  · have bit := congrArg (·.getLsbD k) data
    simpa only [BitVec.getLsbD_and, selected, Bool.and_true, BitVec.getLsbD_zero] using bit
  · rw [show k = 16 - 2 ^ i.val from at_i]
    exact positional i
  · rw [show k = 16 - 16 from last]
    exact overall

/-- The only well-formed word with no data bit is 0: its checks clear positions 1, 2, 4 and 8, and
then the overall parity clears position 16. -/
theorem eq_zero_of_wellFormed_of_data_clear {w : Word} (hw : wellFormedCodeword w = true)
    (data : w &&& 0x2EFE#16 = 0#16) : w = 0#16 := by
  obtain ⟨checks, overall⟩ := (wellFormedCodeword_iff_parity_data w).mp hw
  have positional : ∀ i : Fin 4, bitAt w (2 ^ i.val) = false := by
    intro i
    rw [checks i, data, checkOdd, BitVec.zero_and]
    rfl
  have rest : w &&& 0xFFFE#16 = 0#16 := by
    apply eq_zero_of_parity_data_clear
    · intro i
      rw [bitAt, BitVec.getLsbD_and, ← bitAt, positional i, Bool.false_and]
    · simp [bitAt]
    · rw [BitVec.and_assoc]
      exact data
  rw [rest] at overall
  exact eq_zero_of_parity_data_clear positional overall data

/-! Weights. -/

/-- The positions of a word's 1s, as bit indices. -/
def onesOf (w : Word) : Finset Nat := (Finset.range 16).filter (fun b => w.getLsbD b = true)

/-- A bit index is in `onesOf` when the word has a 1 there. -/
theorem mem_onesOf {w : Word} {b : Nat} : b ∈ onesOf w ↔ w.getLsbD b = true := by
  rw [onesOf, Finset.mem_filter, Finset.mem_range]
  exact and_iff_right_of_imp BitVec.lt_of_getLsbD

/-- The weight is the number of 1s. -/
theorem weight_eq_card (w : Word) : weight w = (onesOf w).card := by
  simp only [weight, onesOf, ← Nat.count_eq_card_filter_range, Nat.count, Bool.decide_eq_true]

/-- Only the zero word has weight 0. -/
theorem eq_zero_of_weight_eq_zero {w : Word} (h : weight w = 0) : w = 0#16 := by
  rw [weight_eq_card, Finset.card_eq_zero] at h
  apply BitVec.eq_of_getLsbD_eq
  intro k _
  have absent : k ∉ onesOf w := by rw [h]; exact Finset.notMem_empty k
  rw [BitVec.getLsbD_zero]
  exact Bool.eq_false_iff.mpr (fun one => absent (mem_onesOf.mpr one))

/-- A word of weight 2 is 0 with two distinct positions inverted. -/
theorem exists_double_flip_of_weight_two {w : Word} (h : weight w = 2) :
    ∃ p q : Nat, 1 ≤ p ∧ p ≤ 16 ∧ 1 ≤ q ∧ q ≤ 16 ∧ p ≠ q ∧ w = flipAt (flipAt 0#16 p) q := by
  rw [weight_eq_card, Finset.card_eq_two] at h
  obtain ⟨a, b, hab, ones⟩ := h
  have one_iff : ∀ k, w.getLsbD k = true ↔ k = a ∨ k = b := by
    intro k
    rw [← mem_onesOf, ones, Finset.mem_insert, Finset.mem_singleton]
  have ha : a < 16 := BitVec.lt_of_getLsbD ((one_iff a).mpr (.inl rfl))
  have hb : b < 16 := BitVec.lt_of_getLsbD ((one_iff b).mpr (.inr rfl))
  refine ⟨16 - a, 16 - b, by omega, by omega, by omega, by omega, by omega, ?_⟩
  apply BitVec.eq_of_getLsbD_eq
  intro k hk
  rw [flipAt, flipAt, BitVec.zero_xor, BitVec.getLsbD_xor, oneHot_getLsbD (by omega),
    oneHot_getLsbD (by omega), Bool.eq_iff_iff, one_iff, show 16 - (16 - a) = a by omega,
    show 16 - (16 - b) = b by omega, Bool.xor_iff_ne, ne_eq,
    decide_eq_decide]
  omega

/-- A one-hot word has weight 1. -/
theorem weight_oneHot {p : Nat} (lo : 1 ≤ p) (hi : p ≤ 16) : weight (oneHot p) = 1 := by
  have all : ∀ q : Fin 17, 1 ≤ q.val → weight (oneHot q.val) = 1 := by decide +kernel
  exact all ⟨p, by omega⟩ lo

/-- The fold under `xor_reduce` counts the 1s modulo 2. -/
theorem xorFold_eq_countP_odd {n : Nat} (w : BitVec n) (bits : List Nat) (acc : Bool) :
    bits.foldl (fun acc b => acc ^^ w.getLsbD b) acc =
      (acc ^^ decide (bits.countP (fun b => w.getLsbD b) % 2 = 1)) := by
  induction bits generalizing acc with
  | nil => simp
  | cons b bs ih =>
    rw [List.foldl_cons, ih, List.countP_cons]
    cases w.getLsbD b
    · simp
    · rcases Nat.mod_two_eq_zero_or_one (bs.countP (fun b => w.getLsbD b)) with even | odd
      · simp [Nat.add_mod, even]
      · simp [Nat.add_mod, odd]

/-- A word has even parity exactly when its weight is even. -/
theorem parityEven_eq_true_iff (w : Word) : parityEven w = true ↔ weight w % 2 = 0 := by
  rw [parityEven, xorReduce, xorFold_eq_countP_odd, Bool.false_xor, ← weight, ← decide_not,
    decide_eq_true_eq]
  omega

/-- A word has odd parity exactly when its weight is odd. -/
theorem parityEven_eq_false_iff (w : Word) : parityEven w = false ↔ weight w % 2 = 1 := by
  rw [← Bool.not_eq_true, parityEven_eq_true_iff]
  omega

/-- A well-formed word other than 0 has weight at least 4: an even weight, which is not 0, and not 2,
since two wrong positions are never well-formed (40_encoder.md R64). -/
theorem four_le_weight {w : Word} (hw : wellFormedCodeword w = true) (nonzero : w ≠ 0#16) :
    4 ≤ weight w := by
  have even : weight w % 2 = 0 :=
    (parityEven_eq_true_iff w).mp ((wellFormedCodeword_iff_syndrome w).mp hw).2
  have not_zero : weight w ≠ 0 := fun h => nonzero (eq_zero_of_weight_eq_zero h)
  have not_two : weight w ≠ 2 := by
    intro h
    obtain ⟨p, q, plo, phi, qlo, qhi, hpq, rfl⟩ := exists_double_flip_of_weight_two h
    have ill := double_flip_not_wellFormed (w := 0#16) (by decide) plo phi qlo qhi hpq
    rw [ill] at hw
    exact absurd hw (by decide)
  omega

end Sys2Proof.Machine
end

section
/-! PROOFS. The laws of the encoder: EXTRACT and INSERT undo each other, PARGEN makes a word
well-formed, and ENCODE is the only well-formed word with its message (40_encoder.md R59 to R65,
43_decoder.md R86). -/

namespace Sys2Proof.Machine

/-! EXTRACT and INSERT. -/

/-- EXTRACT is linear. -/
theorem extractWord_xor (a b : Word) : extractWord (a ^^^ b) = extractWord a ^^^ extractWord b := by
  apply BitVec.eq_of_getLsbD_eq
  intro k _
  simp only [BitVec.getLsbD_xor, extractWord_getLsbD, extractMessage_getLsbD]
  split_ifs
  · rfl
  · rfl
  · rfl
  · rfl

/-- EXTRACT undoes INSERT (43_decoder.md R86). -/
theorem extractWord_insertWord (x : Word) : extractWord (insertWord x) = x &&& 0x07FF#16 := by
  apply BitVec.eq_of_getLsbD_eq
  intro k hk
  simp only [extractWord_getLsbD, extractMessage_getLsbD, insertWord_getLsbD, BitVec.getLsbD_and]
  interval_cases k <;> simp

/-- INSERT undoes EXTRACT on the data positions (43_decoder.md R86). -/
theorem insertWord_extractWord (w : Word) : insertWord (extractWord w) = w &&& 0x2EFE#16 := by
  apply BitVec.eq_of_getLsbD_eq
  intro k hk
  simp only [insertWord_getLsbD, extractWord_getLsbD, extractMessage_getLsbD, BitVec.getLsbD_and]
  interval_cases k <;> simp

/-- A message container on output is its bits 10:0. -/
theorem zext16_and_07FF (m : BitVec 11) : zext16 m &&& 0x07FF#16 = zext16 m := by
  have parts := and_or_and_of_cover (a := 0xF800#16) (b := 0x07FF#16) (zext16 m) (by decide)
  rwa [zext16_and_F800, BitVec.zero_or] at parts

/-- EXTRACT reads the data positions alone. -/
theorem extractWord_and_dataMask (w : Word) : extractWord (w &&& 0x2EFE#16) = extractWord w := by
  rw [← insertWord_extractWord, extractWord_insertWord, extractWord, zext16_and_07FF]

/-- EXTRACT answers 0 exactly when no data position holds a 1. -/
theorem extractWord_eq_zero_iff (w : Word) : extractWord w = 0#16 ↔ w &&& 0x2EFE#16 = 0#16 := by
  constructor
  · intro h
    rw [← insertWord_extractWord, h]
    decide +kernel
  · intro h
    rw [← extractWord_and_dataMask, h]
    decide +kernel

/-- EXTRACT gives the same for words that differ only at parity positions (43_decoder.md R86). -/
theorem extractWord_xor_of_data_clear (w : Word) {v : Word} (h : v &&& 0x2EFE#16 = 0#16) :
    extractWord (w ^^^ v) = extractWord w := by
  rw [extractWord_xor, (extractWord_eq_zero_iff v).mpr h, BitVec.xor_zero]

/-! PARGEN. -/

/-- PARGEN makes a word that is 0 at the parity positions well-formed: each parity bit is its check
of the data positions (40_encoder.md R63). -/
theorem pargenWord_wellFormed {w : Word} (clear : w &&& 0xD101#16 = 0#16) :
    wellFormedCodeword (pargenWord w) = true := by
  have isParity : ∀ i : Fin 4, 2 ^ i.val ∈ [1, 2, 4, 8, 16] := by decide
  rw [wellFormedCodeword_iff_parity_data]
  constructor
  · intro i
    rw [bitAt_pargenWord_two_pow, bitAt_of_parity_clear clear _ (isParity i), Bool.false_or,
      pargenWord_and_dataMask, and_dataMask_of_parity_clear clear]
  · rw [bitAt_pargenWord_sixteen, bitAt_of_parity_clear clear 16 (by decide), Bool.false_or,
      setPositionalParities_eq_parts, and_eq_zero_of_parity_clear clear (by decide), BitVec.or_zero]

/-- One positional step of PARGEN, as the statement on their order writes it (40_encoder.md R59). -/
def setParity (cw : Word) (i : Fin 4) : Word :=
  if xorReduce (cw &&& parityCheckMask i) then cw ||| oneHot (2 ^ i.val) else cw

/-- A positional step sets its parity position under its check. -/
theorem setParity_eq_setWhen (cw : Word) (i : Fin 4) :
    setParity cw i = setWhen (checkOdd cw i) cw (oneHot (2 ^ i.val)) := rfl

/-- The positional steps are `setParity` folded over the source's order of the checks. -/
theorem setPositionalParities_eq_foldl (w : Word) :
    setPositionalParities w = [0, 1, 2, 3].foldl setParity w := rfl

/-- Setting bits under two conditions, in either order. -/
theorem setWhen_comm {n : Nat} (a b : Bool) (v g h : BitVec n) :
    setWhen b (setWhen a v g) h = setWhen a (setWhen b v h) g := by
  cases a <;> cases b <;> simp only [setWhen, if_true, Bool.false_eq_true, if_false]
  rw [BitVec.or_assoc, BitVec.or_comm g h, BitVec.or_assoc]

/-- Two positional steps commute on any word: neither check sees the other's parity position
(40_encoder.md R60). -/
theorem setParity_comm (w : Word) (i j : Fin 4) :
    setParity (setParity w i) j = setParity (setParity w j) i := by
  by_cases h : i = j
  · rw [h]
  · simp only [setParity_eq_setWhen]
    rw [checkOdd_setParity w _ j i (Ne.symm h), checkOdd_setParity w _ i j h, setWhen_comm]

/-! ENCODE. -/

/-- ENCODE gives well-formed words (40_encoder.md R63). -/
theorem encodeWord_wellFormed (x : Word) : wellFormedCodeword (encodeWord x) = true :=
  pargenWord_wellFormed (insertWord_and_parityMask x)

/-- ENCODE is systematic: EXTRACT gives the message back (40_encoder.md R64). -/
theorem extractWord_encodeWord (x : Word) : extractWord (encodeWord x) = x &&& 0x07FF#16 := by
  rw [← extractWord_and_dataMask, encodeWord, pargenWord_and_dataMask, extractWord_and_dataMask,
    extractWord_insertWord]

/-- Two well-formed words with the same message are equal. -/
theorem eq_of_wellFormed_of_extractWord_eq {a b : Word} (ha : wellFormedCodeword a = true)
    (hb : wellFormedCodeword b = true) (h : extractWord a = extractWord b) : a = b := by
  have message_zero : extractWord (a ^^^ b) = 0#16 := by rw [extractWord_xor, h, BitVec.xor_self]
  have wf : wellFormedCodeword (a ^^^ b) = true := by rw [wellFormedCodeword_xor ha, hb]
  exact BitVec.xor_eq_zero_iff.mp
    (eq_zero_of_wellFormed_of_data_clear wf ((extractWord_eq_zero_iff _).mp message_zero))

/-- A well-formed word with the message of `x` is the codeword of `x`. -/
theorem eq_encodeWord_of_wellFormed {w x : Word} (hw : wellFormedCodeword w = true)
    (h : extractWord w = x &&& 0x07FF#16) : w = encodeWord x :=
  eq_of_wellFormed_of_extractWord_eq hw (encodeWord_wellFormed x)
    (h.trans (extractWord_encodeWord x).symm)

/-- A mask distributes over XOR. -/
theorem and_xor_and_right {n : Nat} (a b mask : BitVec n) :
    (a &&& mask) ^^^ (b &&& mask) = (a ^^^ b) &&& mask := by
  ext k hk
  simp only [BitVec.getElem_xor, BitVec.getElem_and]
  cases a[k] <;> cases b[k] <;> cases mask[k] <;> rfl

/-- ENCODE is linear: the XOR of two codewords is well-formed and has the XOR of their messages
(40_encoder.md R65). -/
theorem encodeWord_xor (a b : Word) : encodeWord (a ^^^ b) = encodeWord a ^^^ encodeWord b := by
  symm
  apply eq_encodeWord_of_wellFormed
  · rw [wellFormedCodeword_xor (encodeWord_wellFormed a), encodeWord_wellFormed]
  · rw [extractWord_xor, extractWord_encodeWord, extractWord_encodeWord, and_xor_and_right]

/-- Two well-formed words that differ, differ in at least 4 positions (40_encoder.md R64). -/
theorem four_le_weight_xor {a b : Word} (ha : wellFormedCodeword a = true)
    (hb : wellFormedCodeword b = true) (h : a ≠ b) : 4 ≤ weight (a ^^^ b) :=
  four_le_weight (by rw [wellFormedCodeword_xor ha, hb]) (mt BitVec.xor_eq_zero_iff.mp h)

/-! The equations. -/

/-- `xorBits` of two lists one after the other. -/
theorem xorBits_append (w : Word) (as bs : List Nat) :
    xorBits w (as ++ bs) = (xorBits w as ^^ xorBits w bs) := by
  induction as with
  | nil => rw [List.nil_append, xorBits, Bool.false_xor]
  | cons a as ih => rw [List.cons_append, xorBits, xorBits, ih, Bool.xor_assoc]

/-- `xorBits` does not depend on the order of the bits. -/
theorem xorBits_perm (w : Word) {as bs : List Nat} (h : as.Perm bs) :
    xorBits w as = xorBits w bs := by
  induction h with
  | nil => rfl
  | cons b _ ih => rw [xorBits, xorBits, ih]
  | swap a b bs => simp only [xorBits, Bool.xor_left_comm]
  | trans _ _ ih₁ ih₂ => rw [ih₁, ih₂]

/-- `xorBits` is 0 when every bit is named an even number of times. -/
theorem xorBits_of_perm_double (w : Word) {bits half : List Nat} (h : bits.Perm (half ++ half)) :
    xorBits w bits = false := by
  rw [xorBits_perm w h, xorBits_append, Bool.xor_self]

/-- `xorBits` of the bits a mask selects. -/
theorem xorBits_and (w mask : Word) (bits : List Nat) :
    xorBits (w &&& mask) bits = xorBits w (bits.filter (fun b => mask.getLsbD b)) := by
  induction bits with
  | nil => rfl
  | cons b bs ih =>
    rw [xorBits, ih, BitVec.getLsbD_and, List.filter_cons]
    cases mask.getLsbD b
    · rw [Bool.and_false, Bool.false_xor]
      rfl
    · rw [Bool.and_true]
      rfl

/-- The fold under `xor_reduce` is `xorBits`. -/
theorem xorFold_eq_xorBits (w : Word) (bits : List Nat) (acc : Bool) :
    bits.foldl (fun acc b => acc ^^ w.getLsbD b) acc = (acc ^^ xorBits w bits) := by
  induction bits generalizing acc with
  | nil => rw [xorBits, Bool.xor_false, List.foldl_nil]
  | cons b bs ih => rw [List.foldl_cons, ih, xorBits, Bool.xor_assoc]

/-- `xor_reduce` of a word, its bits in any order. -/
theorem xorReduce_eq_xorBits (w : Word) {bits : List Nat} (h : (List.range 16).Perm bits) :
    xorReduce w = xorBits w bits := by
  rw [xorReduce, xorFold_eq_xorBits, Bool.false_xor, xorBits_perm w h]

/-- The bit indices of check `i`'s equation, in the order of 41_syndrome.md R73. -/
def checkBits : Fin 4 → List Nat
  | 0 => [15, 13, 11, 9, 7, 5, 3, 1]
  | 1 => [14, 13, 10, 9, 6, 5, 2, 1]
  | 2 => [12, 11, 10, 9, 4, 3, 2, 1]
  | 3 => [8, 7, 6, 5, 4, 3, 2, 1]

/-- A check's equation names the bits its mask selects. -/
theorem filter_parityCheckMask_perm_checkBits (i : Fin 4) :
    ((List.range 16).filter (fun b => (parityCheckMask i).getLsbD b)).Perm (checkBits i) := by
  revert i
  decide +kernel

/-- A check is its equation (41_syndrome.md R73). -/
theorem checkOdd_eq_xorBits (w : Word) (i : Fin 4) : checkOdd w i = xorBits w (checkBits i) := by
  rw [checkOdd, xorReduce_eq_xorBits _ (List.Perm.refl _), xorBits_and,
    xorBits_perm w (filter_parityCheckMask_perm_checkBits i)]

/-- The overall parity is its equation (41_syndrome.md R73). -/
theorem xorReduce_eq_xorBits_descending (w : Word) :
    xorReduce w = xorBits w [15, 14, 13, 12, 11, 10, 9, 8, 7, 6, 5, 4, 3, 2, 1, 0] :=
  xorReduce_eq_xorBits w (by decide +kernel)

/-- `syn` is the four check equations (41_syndrome.md R73). -/
theorem syndromeOf_eq_syndromeEquations (w : Word) : syndromeOf w = syndromeEquations w := by
  have bit : ∀ i : Fin 4, (syndromeOf w).getLsbD i.val = (syndromeEquations w).getLsbD i.val := by
    intro i
    rw [syndromeOf_getLsbD, checkOdd_eq_xorBits, syndromeEquations, concatBits_getLsbD]
    fin_cases i <;> rfl
  apply BitVec.eq_of_getLsbD_eq
  intro k hk
  exact bit ⟨k, hk⟩

/-- `par_even` is the fifth equation (41_syndrome.md R73). -/
theorem parityEven_eq_parityEquation (w : Word) : parityEven w = parityEquation w := by
  rw [parityEven, xorReduce_eq_xorBits_descending, parityEquation]

/-- Each check of the parity equations' codeword holds a parity bit and the bits of its equation. -/
theorem checkOdd_encodeConcat (x : Word) (i : Fin 4) : checkOdd (encodeConcat x) i = false := by
  rw [checkOdd_eq_xorBits]
  fin_cases i <;>
    simp only [checkBits, xorBits, encodeConcat, concatBits_getLsbD] <;>
    exact Bool.xor_self _

/-- The overall parity of the parity equations' codeword names every message bit an even number of
times. -/
theorem xorReduce_encodeConcat (x : Word) : xorReduce (encodeConcat x) = false := by
  have even := xorBits_of_perm_double x
    (bits := [10, 9, 7, 6, 4, 2, 0] ++ [10, 8, 7, 5, 4, 1, 0] ++ [10] ++ [9, 8, 7, 3, 2, 1, 0] ++
      [9, 8, 7] ++ [6, 5, 4, 3, 2, 1, 0] ++ [6, 5, 4, 3, 2, 1, 0] ++ [10, 9, 8, 6, 5, 3, 0])
    (half := [10, 10, 9, 9, 8, 8, 7, 7, 6, 6, 5, 5, 4, 4, 3, 3, 2, 2, 1, 1, 0, 0, 0])
    (by decide +kernel)
  rw [xorReduce_eq_xorBits_descending, ← even]
  simp only [xorBits, encodeConcat, concatBits_getLsbD, List.reverse_cons,
    List.reverse_nil, List.nil_append, List.cons_append, List.getD_cons_zero, List.getD_cons_succ,
    Nat.reduceLT, decide_true, Bool.true_and, Bool.xor_false, Bool.xor_assoc]

/-- ENCODE is the codeword of the five parity equations (40_encoder.md R61). -/
theorem encodeWord_eq_encodeConcat (x : Word) : encodeWord x = encodeConcat x := by
  symm
  apply eq_encodeWord_of_wellFormed
  · rw [wellFormedCodeword_iff]
    exact ⟨checkOdd_encodeConcat x, xorReduce_encodeConcat x⟩
  · apply BitVec.eq_of_getLsbD_eq
    intro k hk
    simp only [extractWord_getLsbD, extractMessage_getLsbD, encodeConcat, concatBits_getLsbD,
      BitVec.getLsbD_and]
    interval_cases k <;> simp

end Sys2Proof.Machine

namespace Sys2Proof

open Sys2Proof.Machine

/-- Settles O21: the masks are constants, evaluated at each position. -/
theorem dataMasksSelectTheDataPositions : Obligations.DataMasksSelectTheDataPositions := by
  unfold Obligations.DataMasksSelectTheDataPositions
  exact ⟨rfl, rfl, rfl, by decide, by decide⟩

/-- Settles O24: PARGEN's bits on any word. -/
theorem pargenOnAnyWordFollowsThePseudocode :
    Obligations.PargenOnAnyWordFollowsThePseudocode := by
  intro cwD s
  refine ⟨pargenWord cwD, exec_pargen cwD s, pargenWord_and_dataMask cwD,
    bitAt_pargenWord_two_pow cwD, ?_⟩
  rw [bitAt_pargenWord_sixteen, setPositionalParities_eq_parts]

/-- Settles O25: the positional steps commute, so a fold over a permutation gives the same word. -/
theorem parityChecksAreIndependentOfOrder : Obligations.ParityChecksAreIndependentOfOrder := by
  intro cwD order _ perm
  rw [setPositionalParities_eq_foldl]
  have : RightCommutative setParity := ⟨setParity_comm⟩
  exact perm.foldl_eq (f := setParity) cwD

/-- Settles O27: INSERT's concatenation form and the codeword of the parity equations. -/
theorem encodeFollowsTheParityEquations : Obligations.EncodeFollowsTheParityEquations := by
  intro x s
  rw [exec_encode, settleEncoder, insertWord_eq_insertConcat, encodeWord_eq_encodeConcat]
  rfl

/-- Settles O30: ENCODE gives well-formed words, whose syndrome is (0, 1). -/
theorem encodeGivesWellFormedCodewords : Obligations.EncodeGivesWellFormedCodewords := by
  intro x s
  obtain ⟨checks, overall⟩ := (wellFormedCodeword_iff _).mp (encodeWord_wellFormed x)
  obtain ⟨hsyn, hpar⟩ := (wellFormedCodeword_iff_syndrome _).mp (encodeWord_wellFormed x)
  exact ⟨_, _, exec_encode x s, checks, overall, exec_syndrome _ _, hsyn, hpar⟩

/-- Settles O31: ENCODE is systematic, so distinct messages have distinct codewords, which differ in
at least 4 positions; messages 0 and 2 attain it. -/
theorem encodeIsSystematicWithDistanceFour : Obligations.EncodeIsSystematicWithDistanceFour := by
  refine ⟨fun x s => ?_, fun x y different => ?_, 0x0000#16, 0x0002#16, by decide, by decide +kernel⟩
  · exact ⟨_, _, exec_encode x s, exec_extract _ _, extractWord_encodeWord x⟩
  · apply four_le_weight_xor (encodeWord_wellFormed x) (encodeWord_wellFormed y)
    intro same
    apply different
    rw [← extractWord_encodeWord x, same, extractWord_encodeWord y]

/-- Settles O32: the XOR of two codewords is the codeword of the XOR of their messages. -/
theorem encodeIsLinear : Obligations.EncodeIsLinear := by
  intro a b s
  exact ⟨_, _, _, exec_encode a s, exec_encode b s, exec_encode _ s, encodeWord_xor a b⟩

/-- Settles O47: the three laws of EXTRACT and INSERT, on the stages' records. -/
theorem extractInvertsInsert : Obligations.ExtractInvertsInsert := by
  refine ⟨fun x s => ?_, fun w s => ?_, fun w v h => extractWord_xor_of_data_clear w h⟩
  · exact ⟨_, _, exec_insert x s, exec_extract _ _, extractWord_insertWord x⟩
  · exact ⟨_, _, exec_extract w s, exec_insert _ _, insertWord_extractWord w⟩

end Sys2Proof
end

section
/-! PROOFS. SYNDROME, CORRECT and DECODE of any word: the rows of the decision table, the word CORRECT
answers, and what a corrupted codeword decodes to (41_syndrome.md R69 to R73, 42_corrector.md R76 to
R83, 43_decoder.md R88 to R96). -/

namespace Sys2Proof.Machine

/-! The rows of CORRECT. -/

/-- The table by whether the syndrome is 0 and by the parity, each of the four rows once
(42_corrector.md R80). -/
theorem correctWord_eq_match (w : Word) (syn : BitVec 4) (parEven : Bool) :
    correctWord w syn parEven =
      match decide (syn = 0#4), parEven with
      | true, true => { cwFix := w, errPos := 0#5, status := .ok }
      | true, false => { cwFix := flipAt w 16, errPos := 16#5, status := .corrected }
      | false, false =>
        { cwFix := flipAt w syn.toNat, errPos := syn.setWidth 5, status := .corrected }
      | false, true => { cwFix := w, errPos := 0#5, status := .unreadable } := by
  by_cases hs : syn = 0#4 <;> cases parEven <;> simp [correctWord, hs]

/-- Row U (42_corrector.md R76). -/
theorem correctReceived_rowU {w : Word} (hs : syndromeOf w ≠ 0#4) (hp : parityEven w = true) :
    correctReceived w = ⟨w, 0#5, .unreadable⟩ := by
  simp only [correctReceived, correctWord_eq_match, hs, hp, decide_false]

/-- Row P16 (42_corrector.md R77). -/
theorem correctReceived_rowP16 {w : Word} (hs : syndromeOf w = 0#4) (hp : parityEven w = false) :
    correctReceived w = ⟨flipAt w 16, 16#5, .corrected⟩ := by
  simp only [correctReceived, correctWord_eq_match, hs, hp, decide_true]

/-- Row OK (42_corrector.md R78). -/
theorem correctReceived_rowOK {w : Word} (hs : syndromeOf w = 0#4) (hp : parityEven w = true) :
    correctReceived w = ⟨w, 0#5, .ok⟩ := by
  simp only [correctReceived, correctWord_eq_match, hs, hp, decide_true]

/-- Row C (42_corrector.md R79). -/
theorem correctReceived_rowC {w : Word} (hs : syndromeOf w ≠ 0#4) (hp : parityEven w = false) :
    correctReceived w = ⟨flipAt w (syndromeOf w).toNat, (syndromeOf w).setWidth 5, .corrected⟩ := by
  simp only [correctReceived, correctWord_eq_match, hs, hp, decide_false]

/-! CORRECT by the well-formed word it finds. -/

/-- A well-formed word is OK and left as it is. -/
theorem correctReceived_of_wellFormed {w : Word} (hw : wellFormedCodeword w = true) :
    correctReceived w = ⟨w, 0#5, .ok⟩ := by
  obtain ⟨hs, hp⟩ := (wellFormedCodeword_iff_syndrome w).mp hw
  exact correctReceived_rowOK hs hp

/-- A word one position away from a well-formed word is corrected to it. -/
theorem correctReceived_of_flipAt_wellFormed {w : Word} {p : Nat} (lo : 1 ≤ p) (hi : p ≤ 16)
    (hw : wellFormedCodeword (flipAt w p) = true) :
    correctReceived w = ⟨flipAt w p, BitVec.ofNat 5 p, .corrected⟩ := by
  obtain ⟨hs, hp⟩ := (wellFormedCodeword_flipAt_iff w lo hi).mp hw
  rcases Nat.lt_or_ge p 16 with inChecks | last
  · have number : (syndromeOf w).toNat = p := by
      rw [hs, BitVec.toNat_ofNat, Nat.mod_eq_of_lt inChecks]
    have nonzero : syndromeOf w ≠ 0#4 := by
      intro h
      rw [h, BitVec.toNat_zero] at number
      omega
    rw [correctReceived_rowC nonzero hp, number, ← BitVec.ofNat_toNat, number]
  · obtain rfl : p = 16 := by omega
    exact correctReceived_rowP16 hs hp

/-- A word of even parity that is not well-formed is unreadable and left as it is. -/
theorem correctReceived_of_even_not_wellFormed {w : Word} (hp : parityEven w = true)
    (hw : wellFormedCodeword w = false) : correctReceived w = ⟨w, 0#5, .unreadable⟩ := by
  apply correctReceived_rowU _ hp
  intro hs
  rw [(wellFormedCodeword_iff_syndrome w).mpr ⟨hs, hp⟩] at hw
  exact absurd hw (by decide)

/-- A word of odd parity is one position away from a well-formed word: the position its syndrome
names, or 16. -/
theorem exists_flipAt_wellFormed {w : Word} (hp : parityEven w = false) :
    ∃ p : Nat, 1 ≤ p ∧ p ≤ 16 ∧ wellFormedCodeword (flipAt w p) = true := by
  by_cases hs : syndromeOf w = 0#4
  · refine ⟨16, by decide, by decide, ?_⟩
    exact (wellFormedCodeword_flipAt_iff w (by decide) (by decide)).mpr ⟨hs, hp⟩
  · have bound := (syndromeOf w).isLt
    have positive : (syndromeOf w).toNat ≠ 0 := fun h => hs (BitVec.eq_of_toNat_eq h)
    refine ⟨(syndromeOf w).toNat, by omega, by omega, ?_⟩
    refine (wellFormedCodeword_flipAt_iff w (by omega) (by omega)).mpr ⟨?_, hp⟩
    rw [BitVec.ofNat_toNat, BitVec.setWidth_eq]

/-- What CORRECT does with any word: it finds the word well-formed, or inverts the one position that
makes it so, or finds even parity and no well-formed word (42_corrector.md R83). -/
theorem correctReceived_cases (w : Word) :
    (wellFormedCodeword w = true ∧ correctReceived w = ⟨w, 0#5, .ok⟩) ∨
    (∃ p : Nat, 1 ≤ p ∧ p ≤ 16 ∧ wellFormedCodeword (flipAt w p) = true ∧
      correctReceived w = ⟨flipAt w p, BitVec.ofNat 5 p, .corrected⟩) ∨
    (parityEven w = true ∧ wellFormedCodeword w = false ∧
      correctReceived w = ⟨w, 0#5, .unreadable⟩) := by
  cases hw : wellFormedCodeword w
  · cases hp : parityEven w
    · obtain ⟨p, lo, hi, wf⟩ := exists_flipAt_wellFormed hp
      exact .inr (.inl ⟨p, lo, hi, wf, correctReceived_of_flipAt_wellFormed lo hi wf⟩)
    · exact .inr (.inr ⟨rfl, rfl, correctReceived_of_even_not_wellFormed hp hw⟩)
  · exact .inl ⟨rfl, correctReceived_of_wellFormed hw⟩

/-- `err_pos` shows the position it is given, for the positions 1..16. -/
theorem toNat_errPos {p : Nat} (hi : p ≤ 16) : (BitVec.ofNat 5 p).toNat = p := by
  rw [BitVec.toNat_ofNat]
  omega

/-- At most one position of a word leads to a well-formed word. -/
theorem flipAt_wellFormed_unique {w : Word} {p q : Nat} (plo : 1 ≤ p) (phi : p ≤ 16) (qlo : 1 ≤ q)
    (qhi : q ≤ 16) (hp : wellFormedCodeword (flipAt w p) = true)
    (hq : wellFormedCodeword (flipAt w q) = true) : p = q := by
  have same := (correctReceived_of_flipAt_wellFormed plo phi hp).symm.trans
    (correctReceived_of_flipAt_wellFormed qlo qhi hq)
  have errPos := congrArg (fun r : Correction => r.errPos.toNat) same
  dsimp only at errPos
  rwa [toNat_errPos phi, toNat_errPos qhi] at errPos

/-! The status. -/

/-- The status is OK exactly on the well-formed words. -/
theorem status_ok_iff (w : Word) :
    statusCode (correctReceived w).status = 0b00#2 ↔ wellFormedCodeword w = true := by
  rcases correctReceived_cases w with ⟨hw, h⟩ | ⟨p, lo, hi, wf, h⟩ | ⟨hp, hw, h⟩
  · simp [h, hw, statusCode]
  · have odd := ((wellFormedCodeword_flipAt_iff w lo hi).mp wf).2
    simp [h, statusCode, wellFormedCodeword_iff_syndrome, odd]
  · simp [h, hw, statusCode]

/-- The status is CORRECTED exactly on the words of odd parity. -/
theorem status_corrected_iff (w : Word) :
    statusCode (correctReceived w).status = 0b01#2 ↔ parityEven w = false := by
  rcases correctReceived_cases w with ⟨hw, h⟩ | ⟨p, lo, hi, wf, h⟩ | ⟨hp, hw, h⟩
  · simp [h, statusCode, ((wellFormedCodeword_iff_syndrome w).mp hw).2]
  · simp [h, statusCode, ((wellFormedCodeword_flipAt_iff w lo hi).mp wf).2]
  · simp [h, hp, statusCode]

/-- The status is UNREADABLE exactly on the words of even parity that are not well-formed. -/
theorem status_unreadable_iff (w : Word) :
    statusCode (correctReceived w).status = 0b10#2 ↔
      parityEven w = true ∧ wellFormedCodeword w = false := by
  rcases correctReceived_cases w with ⟨hw, h⟩ | ⟨p, lo, hi, wf, h⟩ | ⟨hp, hw, h⟩
  · simp [h, hw, statusCode]
  · simp [h, statusCode, ((wellFormedCodeword_flipAt_iff w lo hi).mp wf).2]
  · simp [h, hp, hw, statusCode]

/-- The word CORRECT answers is the received word with the bits of `err_pos` inverted
(43_decoder.md R92). -/
theorem correctReceived_cwFix (w : Word) :
    (correctReceived w).cwFix = w ^^^ invertedBits (correctReceived w).errPos := by
  rcases correctReceived_cases w with ⟨-, h⟩ | ⟨p, lo, hi, -, h⟩ | ⟨-, -, h⟩ <;> rw [h]
  · exact (BitVec.xor_zero).symm
  · have nonzero : BitVec.ofNat 5 p ≠ 0#5 := by
      intro zero
      have number := congrArg BitVec.toNat zero
      rw [toNat_errPos hi, BitVec.toNat_zero] at number
      omega
    rw [invertedBits, if_neg nonzero, toNat_errPos hi, flipAt]
  · exact (BitVec.xor_zero).symm

/-! The numbers SYNDROME reports. -/

/-- A position as a 4-bit number: itself up to 15, and 0 for 16. -/
theorem toNat_ofNat_position {p : Nat} (hi : p ≤ 16) :
    (BitVec.ofNat 4 p).toNat = if p ≤ 15 then p else 0 := by
  rw [BitVec.toNat_ofNat]
  split <;> omega

/-- A conditional XOR, bit by bit. -/
theorem getLsbD_ite_xor {n : Nat} (b : Bool) (v h : BitVec n) (k : Nat) :
    (if b then v ^^^ h else v).getLsbD k = (v.getLsbD k ^^ (b && h.getLsbD k)) := by
  cases b <;> simp

/-- Bit `k` of the XOR of the positions that hold a 1: the positions whose number has bit `k`. -/
theorem positionFold_getLsbD (w : Word) (ps : List Nat) (acc : BitVec 4) (k : Nat) :
    (ps.foldl (fun acc p => if bitAt w p then acc ^^^ BitVec.ofNat 4 p else acc) acc).getLsbD k =
      (acc.getLsbD k ^^
        xorBits w ((ps.filter (fun p => (BitVec.ofNat 4 p).getLsbD k)).map (fun p => 16 - p))) := by
  induction ps generalizing acc with
  | nil => rw [List.foldl_nil, List.filter_nil, List.map_nil, xorBits, Bool.xor_false]
  | cons p ps ih =>
    rw [List.foldl_cons, ih, getLsbD_ite_xor, List.filter_cons]
    cases (BitVec.ofNat 4 p).getLsbD k
    · rw [Bool.and_false, Bool.xor_false]
      rfl
    · rw [Bool.and_true, Bool.xor_assoc]
      rfl

/-- The positions whose number has bit `i` are those of check `i`'s equation. -/
theorem positionBits_perm_checkBits (i : Fin 4) :
    (((List.range' 1 15).filter (fun p => (BitVec.ofNat 4 p).getLsbD i.val)).map
      (fun p => 16 - p)).Perm (checkBits i) := by
  revert i
  decide +kernel

/-- The syndrome is the XOR of the positions that hold a 1 (41_syndrome.md R70). -/
theorem syndromeOf_eq_syndromeAsPositionSum (w : Word) :
    syndromeOf w = syndromeAsPositionSum w := by
  have bit : ∀ i : Fin 4,
      (syndromeOf w).getLsbD i.val = (syndromeAsPositionSum w).getLsbD i.val := by
    intro i
    rw [syndromeOf_getLsbD, checkOdd_eq_xorBits, syndromeAsPositionSum, positionFold_getLsbD,
      BitVec.getLsbD_zero, Bool.false_xor, xorBits_perm w (positionBits_perm_checkBits i)]
  apply BitVec.eq_of_getLsbD_eq
  intro k hk
  exact bit ⟨k, hk⟩

/-! A corrupted codeword. -/

/-- A corrupted codeword has the error pattern's syndrome and parity (41_syndrome.md R70). -/
theorem syndrome_encodeWord_xor (x e : Word) :
    syndromeOf (encodeWord x ^^^ e) = syndromeOf e ∧
      parityEven (encodeWord x ^^^ e) = parityEven e := by
  obtain ⟨hs, hp⟩ := (wellFormedCodeword_iff_syndrome _).mp (encodeWord_wellFormed x)
  rw [syndromeOf_xor, parityEven_xor, hs, hp, BitVec.zero_xor, Bool.not_true, Bool.false_xor,
    Bool.not_not]
  exact ⟨rfl, rfl⟩

/-- The status of CORRECT is its operands' alone. -/
theorem correctWord_status_congr (w v : Word) (syn : BitVec 4) (parEven : Bool) :
    (correctWord w syn parEven).status = (correctWord v syn parEven).status := by
  rw [correctWord_eq_match, correctWord_eq_match]
  cases decide (syn = 0#4) <;> cases parEven <;> rfl

/-- A corrupted codeword has the error pattern's status (43_decoder.md R92). -/
theorem status_encodeWord_xor (x e : Word) :
    (correctReceived (encodeWord x ^^^ e)).status = (correctReceived e).status := by
  obtain ⟨hs, hp⟩ := syndrome_encodeWord_xor x e
  rw [correctReceived, hs, hp, correctReceived]
  exact correctWord_status_congr _ _ _ _

/-- EXTRACT of a corrupted codeword is the message with the data bits of the pattern. -/
theorem extractWord_encodeWord_xor (x e : Word) :
    extractWord (encodeWord x ^^^ e) = (x &&& 0x07FF#16) ^^^ extractWord e := by
  rw [extractWord_xor, extractWord_encodeWord]

/-- A well-formed word other than the codeword sent has another message than the one sent. -/
theorem extractWord_ne_of_ne_encodeWord {w x : Word} (hw : wellFormedCodeword w = true)
    (h : w ≠ encodeWord x) : extractWord w ≠ x &&& 0x07FF#16 :=
  mt (eq_encodeWord_of_wellFormed hw) h

/-- A codeword corrupted by a pattern other than 0 is not the codeword sent. -/
theorem encodeWord_xor_ne {x e : Word} (h : e ≠ 0#16) : encodeWord x ^^^ e ≠ encodeWord x := by
  intro same
  apply h
  calc e = encodeWord x ^^^ (encodeWord x ^^^ e) := by
        rw [← BitVec.xor_assoc, BitVec.xor_self, BitVec.zero_xor]
    _ = 0#16 := by rw [same, BitVec.xor_self]

/-- The message on a status other than UNREADABLE is EXTRACT of the corrected word. -/
theorem decodedMessage_of_readable {c : Word} {r : Correction}
    (h : statusCode r.status ≠ 0b10#2) : decodedMessage c r = extractWord r.cwFix := by
  rw [decodedMessage_eq_ite]
  exact if_neg h

/-! Messages of codewords. -/

/-- A container on output determines its message. -/
theorem zext16_injective {m n : BitVec 11} (h : zext16 m = zext16 n) : m = n := by
  have low := congrArg (BitVec.setWidth 11) h
  simpa [zext16] using low

/-- EXTRACT of the codeword of an 11-bit message is that message. -/
theorem extractWord_encodeWord_zext16 (m : BitVec 11) :
    extractWord (encodeWord (zext16 m)) = zext16 m := by
  rw [extractWord_encodeWord, zext16_and_07FF]

/-- A well-formed word is the codeword of the message EXTRACT reads. -/
theorem encodeWord_extractMessage {w : Word} (hw : wellFormedCodeword w = true) :
    encodeWord (zext16 (extractMessage w)) = w :=
  (eq_encodeWord_of_wellFormed hw (zext16_and_07FF _).symm).symm

/-- Distinct 11-bit messages have distinct codewords. -/
theorem encodeWord_zext16_injective {m n : BitVec 11}
    (h : encodeWord (zext16 m) = encodeWord (zext16 n)) : m = n := by
  apply zext16_injective
  rw [← extractWord_encodeWord_zext16 m, h, extractWord_encodeWord_zext16]

/-- The well-formed words are the codewords (30_encoding.md R46). -/
theorem wellFormedCodeword_iff_exists (w : Word) :
    wellFormedCodeword w = true ↔ ∃ m : BitVec 11, encodeWord (zext16 m) = w := by
  constructor
  · exact fun hw => ⟨_, encodeWord_extractMessage hw⟩
  · rintro ⟨m, rfl⟩
    exact encodeWord_wellFormed _

/-- The well-formed words are the codewords of exactly one message each. -/
theorem wellFormedCodeword_iff_existsUnique (w : Word) :
    wellFormedCodeword w = true ↔ ∃! m : BitVec 11, encodeWord (zext16 m) = w := by
  rw [wellFormedCodeword_iff_exists]
  constructor
  · rintro ⟨m, rfl⟩
    exact ⟨m, rfl, fun n hn => encodeWord_zext16_injective hn⟩
  · exact ExistsUnique.exists

/-- The words of odd parity are the one-bit neighbours of exactly one codeword, at exactly one
position (43_decoder.md R96). -/
theorem parityOdd_iff_existsUnique_neighbour (w : Word) :
    parityEven w = false ↔
      ∃! mp : BitVec 11 × Fin 16, flipAt (encodeWord (zext16 mp.1)) (mp.2.val + 1) = w := by
  constructor
  · intro odd
    obtain ⟨p, lo, hi, wf⟩ := exists_flipAt_wellFormed odd
    have back : p - 1 + 1 = p := by omega
    refine ⟨(extractMessage (flipAt w p), ⟨p - 1, by omega⟩), ?_, ?_⟩
    · dsimp only
      rw [encodeWord_extractMessage wf, back, flipAt_flipAt]
    · rintro ⟨n, q⟩ hq
      dsimp only at hq
      have codeword : flipAt w (q.val + 1) = encodeWord (zext16 n) := by
        rw [← hq, flipAt_flipAt]
      have wf' : wellFormedCodeword (flipAt w (q.val + 1)) = true := by
        rw [codeword, encodeWord_wellFormed]
      obtain rfl : p = q.val + 1 := flipAt_wellFormed_unique lo hi (by omega) (by omega) wf wf'
      have message : n = extractMessage (flipAt w (q.val + 1)) := by
        apply zext16_injective
        rw [codeword]
        exact (extractWord_encodeWord_zext16 n).symm
      exact Prod.ext message rfl
  · rintro ⟨⟨m, q⟩, hq, -⟩
    rw [← hq, parityEven_flipAt _ (by omega) (by omega),
      ((wellFormedCodeword_iff_syndrome _).mp (encodeWord_wellFormed _)).2]
    rfl

end Sys2Proof.Machine

namespace Sys2Proof

open Sys2Proof.Machine

/-! SYNDROME. -/

/-- Settles O34: `syn` and `par_even` are the equations. -/
theorem syndromeFollowsTheCheckEquations : Obligations.SyndromeFollowsTheCheckEquations := by
  intro w s
  rw [exec_syndrome, syndromeOf_eq_syndromeEquations, parityEven_eq_parityEquation]
  rfl

/-- Settles O35: a syndrome of 0 is even checks, and `par_even` is even parity. -/
theorem zeroSyndromeMeansWellFormed : Obligations.ZeroSyndromeMeansWellFormed := by
  intro w s
  refine ⟨_, exec_syndrome w s, ?_⟩
  rw [State.putSyndrome_stages_syndrome, ← wellFormedCodeword_iff_syndrome, wellFormedCodeword_iff]
  rfl

/-- Settles O37: inverting position `p` moves the syndrome of a well-formed word from 0 to `p`. -/
theorem singleErrorSyndromeIsItsPosition : Obligations.SingleErrorSyndromeIsItsPosition := by
  intro w p s hw lo hi
  obtain ⟨hsyn, hpar⟩ := (wellFormedCodeword_iff_syndrome w).mp hw
  refine ⟨_, exec_syndrome _ s, ?_, ?_⟩
  · rw [State.putSyndrome_stages_syndrome, parityEven_flipAt w lo hi, hpar, Bool.not_true]
  · rw [State.putSyndrome_stages_syndrome, syndromeOf_flipAt w lo hi, hsyn, BitVec.zero_xor,
      toNat_ofNat_position hi]

/-- Settles O38: the syndrome is the XOR of two distinct positions. -/
theorem doubleErrorSyndromeIsNonzero : Obligations.DoubleErrorSyndromeIsNonzero := by
  intro w p q s hw plo phi qlo qhi hpq
  obtain ⟨hsyn, hpar⟩ := syndrome_of_double_flip hw plo phi qlo qhi
  refine ⟨_, exec_syndrome _ s, hpar, ?_, hsyn⟩
  rw [State.putSyndrome_stages_syndrome, hsyn]
  exact ofNat_xor_ofNat_ne_zero plo phi qlo qhi hpq

/-- Settles O36: linearity of the checks, the positions' sum bit by bit, and a codeword's syndrome
of 0. -/
theorem syndromeIsLinear : Obligations.SyndromeIsLinear := by
  refine ⟨fun a b => ⟨syndromeOf_xor a b, parityEven_xor a b⟩,
    syndromeOf_eq_syndromeAsPositionSum, fun x e s => ?_⟩
  obtain ⟨hs, hp⟩ := syndrome_encodeWord_xor x e
  exact ⟨_, _, exec_syndrome _ s, exec_syndrome e s, hs, hp⟩

/-! CORRECT. -/

/-- Settles O41: the four rows by whether the syndrome is 0 and by the parity. -/
theorem decisionTableIsExhaustiveAndExclusive :
    Obligations.DecisionTableIsExhaustiveAndExclusive := by
  intro w syn parEven
  rw [correctWord_eq_match]
  cases decide (syn = 0#4) <;> cases parEven <;> rfl

/-- Settles O39: the rows U, OK and C of the table, with its operands by the check equations. -/
theorem correctFollowsTheSourceRows : Obligations.CorrectFollowsTheSourceRows := by
  intro w s
  dsimp only
  rw [← syndromeOf_eq_syndromeEquations, ← parityEven_eq_parityEquation]
  refine ⟨fun hs hp => ⟨?_, ?_⟩, fun hs hp => ?_, fun hs hp => ?_, ?_⟩
  · rw [exec_correct, correctRecord, correctReceived_rowU hs hp]
    rfl
  · obtain ⟨m, hm⟩ := decodedMessage_eq_zext16 w (correctReceived w)
    exact ⟨m, _, exec_decode w s, hm⟩
  · rw [exec_correct, correctRecord, correctReceived_rowOK hs hp]
    rfl
  · rw [exec_correct, correctRecord, correctReceived_rowC hs hp]
    rfl
  · exact (wellFormedCodeword_iff_syndrome w).symm

/-- Settles O40: row P16, which inverts no data position. -/
theorem correctInvertsTheOverallParityBit : Obligations.CorrectInvertsTheOverallParityBit := by
  intro w s hs hp
  rw [← syndromeOf_eq_syndromeEquations] at hs
  rw [← parityEven_eq_parityEquation] at hp
  refine ⟨?_, extractWord_xor_of_data_clear w (by decide)⟩
  rw [exec_correct, correctRecord, correctReceived_rowP16 hs hp, hs, hp]
  rfl

/-- Settles O42: an `err_pos` other than 0 is CORRECTED's, and a parity position is no data
position. -/
theorem correctionAtAParityPositionKeepsTheMessage :
    Obligations.CorrectionAtAParityPositionKeepsTheMessage := by
  intro w s
  refine ⟨_, exec_correct w s, fun atParity => ?_⟩
  have noData : ∀ q ∈ [1, 2, 4, 8, 16], oneHot q &&& 0x2EFE#16 = 0#16 := by decide
  rw [State.putCorrect_stages_correct] at atParity ⊢
  simp only [correctRecord] at atParity ⊢
  rcases correctReceived_cases w with ⟨-, h⟩ | ⟨p, lo, hi, -, h⟩ | ⟨-, -, h⟩ <;>
    simp only [h] at atParity ⊢
  · exact absurd atParity (by decide)
  · rw [toNat_errPos hi] at atParity
    exact ⟨rfl, extractWord_xor_of_data_clear w (noData p atParity)⟩
  · exact absurd atParity (by decide)

/-- Settles O43: CORRECT's three cases. -/
theorem correctedWordsAreWellFormed : Obligations.CorrectedWordsAreWellFormed := by
  intro w s
  refine ⟨_, exec_correct w s, ?_⟩
  rw [State.putCorrect_stages_correct]
  simp only [correctRecord]
  rcases correctReceived_cases w with ⟨hw, h⟩ | ⟨p, -, -, wf, h⟩ | ⟨-, hw, h⟩ <;>
    simp only [h]
  · exact ⟨fun _ => hw, fun unreadable => absurd unreadable (by decide)⟩
  · exact ⟨fun _ => wf, fun unreadable => absurd unreadable (by decide)⟩
  · exact ⟨fun readable => absurd rfl readable, fun _ => ⟨trivial, hw⟩⟩

/-! DECODE. -/

/-- Settles O49: the four rows of the table, each with its message. -/
theorem decodeGivesTheTableOutcome : Obligations.DecodeGivesTheTableOutcome := by
  intro c s
  dsimp only
  rw [← syndromeOf_eq_syndromeEquations, ← parityEven_eq_parityEquation]
  simp only [← extractWord_eq_extractConcat]
  refine ⟨fun hs hp => ?_, fun hs hp => ?_, fun hs hp => ?_, fun hs hp => ⟨Config.draw11 c, ?_⟩⟩
  · rw [exec_decode, settleDecoder, correctReceived_rowOK hs hp]
    rfl
  · rw [exec_decode, settleDecoder, correctReceived_rowP16 hs hp]
    rfl
  · rw [exec_decode, settleDecoder, correctReceived_rowC hs hp]
    rfl
  · rw [exec_decode, settleDecoder, correctReceived_rowU hs hp]
    rfl

/-- Settles O44: an odd pattern's codeword is one position away from a well-formed word, which is not
the codeword sent, since the pattern is not that one position. -/
theorem oddErrorsBeyondOneAreMiscorrected : Obligations.OddErrorsBeyondOneAreMiscorrected := by
  intro x e s odd three
  have oddWord : parityEven (encodeWord x ^^^ e) = false := by
    rw [(syndrome_encodeWord_xor x e).2, parityEven_eq_false_iff, odd]
  obtain ⟨p, lo, hi, wf⟩ := exists_flipAt_wellFormed oddWord
  have corrected := correctReceived_of_flipAt_wellFormed lo hi wf
  have pattern : e ^^^ oneHot p ≠ 0#16 := by
    intro h
    rw [BitVec.xor_eq_zero_iff.mp h, weight_oneHot lo hi] at three
    exact absurd three (by decide)
  have other : flipAt (encodeWord x ^^^ e) p ≠ encodeWord x := by
    rw [flipAt, BitVec.xor_assoc]
    exact encodeWord_xor_ne pattern
  refine ⟨_, exec_decode _ s, ?_, ?_⟩ <;>
    rw [State.putDecoder_dec, settleDecoder, corrected]
  · rfl
  · exact extractWord_ne_of_ne_encodeWord wf other

/-- Settles O45: an even pattern's codeword has even parity and is well-formed when the pattern is. -/
theorem evenErrorsAreDetectedUnlessTheyFormACodeword :
    Obligations.EvenErrorsAreDetectedUnlessTheyFormACodeword := by
  intro x e s even nonzero
  have sameWf := wellFormedCodeword_xor (encodeWord_wellFormed x) e
  refine ⟨_, exec_decode _ s, fun ill => ?_, fun wf => ?_⟩
  · rw [State.putDecoder_dec]
    refine (status_unreadable_iff _).mpr ⟨?_, sameWf.trans ill⟩
    rw [(syndrome_encodeWord_xor x e).2, parityEven_eq_true_iff, even]
  · have wfWord := sameWf.trans wf
    rw [State.putDecoder_dec, settleDecoder, correctReceived_of_wellFormed wfWord]
    exact ⟨rfl, extractWord_ne_of_ne_encodeWord wfWord (encodeWord_xor_ne nonzero),
      four_le_weight wf nonzero⟩

/-- Settles O52: a codeword adds nothing to the pattern's syndrome, parity and status, and its message
to the data bits that CORRECT leaves of the pattern. -/
theorem statusDependsOnTheErrorPatternAlone : Obligations.StatusDependsOnTheErrorPatternAlone := by
  intro x e s
  obtain ⟨hs, hp⟩ := syndrome_encodeWord_xor x e
  refine ⟨_, _, exec_decode _ s, exec_decode e s,
    congrArg statusCode (status_encodeWord_xor x e), hs, hp, fun readable => ?_⟩
  rw [State.putDecoder_dec] at readable ⊢
  simp only [settleDecoder] at readable ⊢
  rw [decodedMessage_of_readable readable, correctReceived_cwFix, BitVec.xor_assoc,
    extractWord_encodeWord_xor]
  rw [← extractWord_eq_zero_iff]
  exact ⟨rfl, xor_left_eq_self_iff⟩

/-- Settles O53: a codeword is OK and holds its message. -/
theorem decodeOfEncodeRoundTrips : Obligations.DecodeOfEncodeRoundTrips := by
  intro x s
  have wf := encodeWord_wellFormed x
  obtain ⟨hs, hp⟩ := (wellFormedCodeword_iff_syndrome _).mp wf
  refine ⟨_, _, exec_encode x s, exec_decode _ _, ?_, ?_, hs, hp⟩ <;>
    simp only [State.putEncoder_enc, State.putDecoder_dec, settleEncoder, settleDecoder,
      correctReceived_of_wellFormed wf]
  · exact extractWord_encodeWord x
  · rfl

/-- Settles O54: the well-formed word one position away from the corrupted codeword is the codeword
sent. -/
theorem everySingleErrorIsCorrected : Obligations.EverySingleErrorIsCorrected := by
  intro x p s lo hi
  have back := flipAt_flipAt (encodeWord x) p
  have wf : wellFormedCodeword (flipAt (flipAt (encodeWord x) p) p) = true := by
    rw [back, encodeWord_wellFormed]
  have corrected := correctReceived_of_flipAt_wellFormed lo hi wf
  obtain ⟨hs, hp⟩ := (wellFormedCodeword_flipAt_iff _ lo hi).mp wf
  rw [back] at corrected
  refine ⟨_, _, exec_encode x s, exec_decode _ _, ?_⟩
  simp only [State.putEncoder_enc, State.putDecoder_dec, settleEncoder, settleDecoder, corrected,
    hs, hp]
  exact ⟨extractWord_encodeWord x, rfl, trivial, toNat_errPos hi, toNat_ofNat_position hi, trivial⟩

/-- Settles O55: two wrong positions leave the parity even and the word not well-formed. -/
theorem everyDoubleErrorIsDetected : Obligations.EveryDoubleErrorIsDetected := by
  intro x p q s plo phi qlo qhi hpq
  have wf := encodeWord_wellFormed x
  have unreadable := correctReceived_of_even_not_wellFormed
    (syndrome_of_double_flip wf plo phi qlo qhi).2
    (double_flip_not_wellFormed wf plo phi qlo qhi hpq)
  refine ⟨_, _, exec_encode x s, exec_decode _ _, ?_⟩
  simp only [State.putEncoder_enc, State.putDecoder_dec, settleEncoder, settleDecoder, unreadable]
  exact ⟨rfl, trivial, trivial⟩

/-- Settles O56: the three statuses by well-formedness and parity, which are the codewords, the odd
weights and the one-bit neighbours. -/
theorem statusPartitionsTheInputWords : Obligations.StatusPartitionsTheInputWords := by
  intro c s
  refine ⟨_, exec_decode c s, ?_⟩
  simp only [State.putDecoder_dec, settleDecoder]
  rw [status_ok_iff, status_corrected_iff, status_unreadable_iff, parityEven_eq_true_iff]
  refine ⟨wellFormedCodeword_iff_existsUnique c, parityEven_eq_false_iff c,
    parityOdd_iff_existsUnique_neighbour c, and_congr_right fun _ => ?_⟩
  rw [← Bool.not_eq_true]
  exact not_congr (wellFormedCodeword_iff_exists c)

end Sys2Proof
end
